-- ==== Sys2Proof/Word.lean ====
section
/-! DEFINITION. The word types: a sample or operand word of `W` bits, the sample rate, a buffer length, a packed command. -/

namespace Sys2Proof

/-- One word of `W` bits (00_scope.md R6, R10), held in the low `W` bits of 64. At `binary64` it is the whole
word. At `binary32` the upper 32 bits are no part of it: no operation reads them and every operation writes zeros there
(notes/assumptions/7.md, DESIGN CHOICE). -/
abbrev FWord := BitVec 64

/-- The sample rate: `SRW = 32` bits, unsigned (00_scope.md R6). -/
abbrev Rate := BitVec 32

/-- A buffer length: `LW = 32` bits, unsigned (00_scope.md R6). -/
abbrev Len := BitVec 32

/-- A packed command word, as wide as the widest format, `5 + 3W` with `W = 64` (30_encoding.md R57). -/
abbrev Cmd := BitVec 197

end Sys2Proof
end

