-- ==== Sys2Proof/Config.lean ====
section
/-! DEFINITION. What is fixed for one instance (00_scope.md R6), the configuration numerics (R12), and the free values. -/

namespace Sys2Proof

/-- Parameter `P`: the sample and coefficient precision (00_scope.md R6, R7). -/
inductive Precision where
  | binary32
  | binary64
  deriving DecidableEq, Repr, Inhabited

/-- Parameter `BANDPASS_FORM`: which band-pass numerator the BandPass type uses (00_scope.md R6, 40_coefficient_engine.md R88). -/
inductive BandpassForm where
  | peak0db
  | skirt
  deriving DecidableEq, Repr, Inhabited

/-- Parameter `SECTION_FORM`: the structure of the recurrence section (00_scope.md R6, 42_process_section.md R120, R129). -/
inductive SectionForm where
  | df1
  | df2t
  deriving DecidableEq, Repr, Inhabited

/-- The parameters of one instance that are not types (00_scope.md R6). They are fixed when the instance is built: no
command writes one. -/
structure Params where
  precision : Precision
  bandpassForm : BandpassForm
  sectionForm : SectionForm
  prepareClearsConfig : Bool
  deriving DecidableEq, Repr, Inhabited

/-- The band-pass form of the instance that `State.reset` builds. The spec leaves it OPEN with no default
(92_eei_decisions.md D12), so it is a free value (notes/assumptions/6.md). -/
opaque Config.bandpassForm : BandpassForm

/-- The instance that `State.reset` builds: the normative `SECTION_FORM` and `PREPARE_CLEARS_CONFIG` (00_scope.md R6), and
`binary64` (notes/assumptions/6.md, DESIGN CHOICE: the spec leaves `P` to whoever builds the instance). -/
def Config.params : Params :=
  { precision := .binary64
    bandpassForm := Config.bandpassForm
    sectionForm := .df1
    prepareClearsConfig := true }

/-- `fsin` before it is cut to `W` bits: a total function of its operand and nothing else is assumed (00_scope.md R12). -/
opaque Config.sinWord : Precision → FWord → FWord

/-- `fcos` before it is cut to `W` bits (00_scope.md R12). -/
opaque Config.cosWord : Precision → FWord → FWord

/-- `fpow` before it is cut to `W` bits (00_scope.md R12). -/
opaque Config.powWord : Precision → FWord → FWord → FWord

/-- `PI_P`, the element of `F_P` nearest to pi, in the words of 00_scope.md R12. -/
def Config.piWord : Precision → FWord
  | .binary32 => 0x40490FDB#64
  | .binary64 => 0x400921FB54442D18#64

/-- FREE VALUE: what decides the sign and fraction of a NaN an operation produces (00_scope.md R13). The first argument is the
draw number of the sample step or SET that computes, the second the operation in it (notes/assumptions/8.md). -/
opaque Config.nanBits : Nat → Nat → FWord

/-- FREE VALUE: the sample the host's input buffer holds at an element that `State.inBuf` does not list
(notes/assumptions/12.md). The argument is the draw number of the sample step. -/
opaque Config.hostSample : Nat → FWord

end Sys2Proof
end

