-- ==== Sys2Proof/Machine/Operands.lean ====
section
/-! DEFINITION. Operand words: the IEEE 754 layout of `F_P` (00_scope.md R10), the tests the rules make of a word (R13, R18),
and the exact value of a finite word as a whole number of the smallest subnormal. -/

namespace Sys2Proof

/-- `W` (00_scope.md R6). -/
def Precision.width : Precision → Nat
  | .binary32 => 32
  | .binary64 => 64

/-- Fraction bits (00_scope.md R10). -/
def Precision.fracBits : Precision → Nat
  | .binary32 => 23
  | .binary64 => 52

/-- Exponent bits (00_scope.md R10). -/
def Precision.expBits : Precision → Nat
  | .binary32 => 8
  | .binary64 => 11

/-- Exponent bias (00_scope.md R10). -/
def Precision.bias : Precision → Nat
  | .binary32 => 127
  | .binary64 => 1023

/-- Every finite value of `F_P` is a whole number of `2 ^ (-scaleBits)`, the smallest positive subnormal. -/
def Precision.scaleBits (p : Precision) : Nat := p.bias + p.fracBits - 1

/-- The exponent and fraction bits of an infinity: all exponent bits 1, fraction 0 (00_scope.md R10). -/
def Precision.infMag (p : Precision) : Nat := (2 ^ p.expBits - 1) * 2 ^ p.fracBits

/-- The low `W` bits of a word: what an element of `F_P` is made of. -/
def Precision.cut (p : Precision) (w : FWord) : FWord := BitVec.ofNat 64 (w.toNat % 2 ^ p.width)

/-- The word has no bit above its `W`. -/
def Precision.fits (p : Precision) (w : FWord) : Bool := decide (w.toNat < 2 ^ p.width)

/-- The sign, bit `W-1` (00_scope.md R10). -/
def Precision.signBit (p : Precision) (w : FWord) : Bool := w.toNat.testBit (p.width - 1)

/-- Exponent and fraction, the `W-1` bits below the sign, as one number: it grows with the magnitude of the value. -/
def Precision.magBits (p : Precision) (w : FWord) : Nat := w.toNat % 2 ^ (p.width - 1)

/-- `isnan(v)` (00_scope.md R13): all exponent bits 1 and a fraction that is not 0 (R10). -/
def Precision.isNaN (p : Precision) (w : FWord) : Bool := decide (p.infMag < p.magBits w)

/-- The word is `+inf` or `-inf` (00_scope.md R10). -/
def Precision.isInf (p : Precision) (w : FWord) : Bool := p.magBits w == p.infMag

/-- `finite(v)` (00_scope.md R10): neither an infinity nor a NaN. -/
def Precision.finite (p : Precision) (w : FWord) : Bool := decide (p.magBits w < p.infMag)

/-- The word is `+0` or `-0`. -/
def Precision.isZero (p : Precision) (w : FWord) : Bool := p.magBits w == 0

/-- The magnitude that exponent-and-fraction bits stand for, in units of `2 ^ (-scaleBits)`: a subnormal counts its fraction, a
normal number its fraction with the hidden bit, shifted by its exponent (00_scope.md R10). -/
def Precision.magValue (p : Precision) (mag : Nat) : Nat :=
  let e := mag / 2 ^ p.fracBits
  let f := mag % 2 ^ p.fracBits
  if e = 0 then f else (2 ^ p.fracBits + f) * 2 ^ (e - 1)

/-- `|real(v)|` of a finite word in units of `2 ^ (-scaleBits)`. -/
def Precision.scaled (p : Precision) (w : FWord) : Nat := p.magValue (p.magBits w)

/-- `real(v)` of a finite word in units of `2 ^ (-scaleBits)`. -/
def Precision.scaledInt (p : Precision) (w : FWord) : Int :=
  if p.signBit w then -(p.scaled w : Int) else (p.scaled w : Int)

/-- `v > 0` (00_scope.md R18): false for a NaN and for both zeros, true for `+inf`. -/
def Precision.positive (p : Precision) (w : FWord) : Bool :=
  !p.isNaN w && !p.signBit w && !p.isZero w

/-- `2 * real(f) < sr`, compared as real numbers, for a finite `f` (00_scope.md R18, 40_coefficient_engine.md R77). -/
def Precision.belowNyquist (p : Precision) (sr : Rate) (w : FWord) : Bool :=
  decide (2 * p.scaledInt w < (sr.toNat : Int) * 2 ^ p.scaleBits)

/-- The word with the given sign and exponent-and-fraction bits. -/
def Precision.mkWord (p : Precision) (negative : Bool) (mag : Nat) : FWord :=
  BitVec.ofNat 64 ((if negative then 2 ^ (p.width - 1) else 0) + mag)

/-- A zero of the given sign. -/
def Precision.zeroWord (p : Precision) (negative : Bool) : FWord := p.mkWord negative 0

/-- An infinity of the given sign. -/
def Precision.infWord (p : Precision) (negative : Bool) : FWord := p.mkWord negative p.infMag

/-- The NaN a draw decides: sign and fraction are the draw's, a fraction of 0 (which would be an infinity) becomes the quiet
bit. Every NaN of `F_P` is the NaN of some draw (00_scope.md R13, notes/assumptions/8.md). -/
def Precision.nanWord (p : Precision) (draw : FWord) : FWord :=
  let f := p.magBits draw % 2 ^ p.fracBits
  p.mkWord (p.signBit draw) (p.infMag + if f = 0 then 2 ^ (p.fracBits - 1) else f)

/-- The same value of `F_P`, the bit pattern of a NaN apart (00_scope.md R13, 93_implementation_defined.md U3). -/
def Precision.same (p : Precision) (v w : FWord) : Prop :=
  v = w ∨ (p.isNaN v = true ∧ p.isNaN w = true)

end Sys2Proof
end

