-- ==== Sys2Proof/Syntax.lean ====
section
/-! DEFINITION. The commands of the block: one constructor per row of spec/opcode_table.json. -/

namespace Sys2Proof

/-- The filter types, "a closed tagged variant" of exactly eight (30_encoding.md R55). -/
inductive FilterType where
  | lowPass
  | highPass
  | bandPass
  | notch
  | peak
  | lowShelf
  | highShelf
  | allPass
  deriving DecidableEq, Repr

/-- A decoded command with its operands (30_encoding.md R56, R57). The three `ftype` bits that formats P, B and R ignore
(R69) are no operand. The input samples of PROCESS are not part of the packed word: they are on the input stream (R60). -/
inductive Instr where
  /-- PREPARE `rate` (41_configuration_commands.md R105). -/
  | prepare (rate : Rate)
  /-- SET.LOWPASS (R108). -/
  | setLowPass (freq q gain : FWord)
  /-- SET.HIGHPASS (R109). -/
  | setHighPass (freq q gain : FWord)
  /-- SET.BANDPASS (R110). -/
  | setBandPass (freq q gain : FWord)
  /-- SET.NOTCH (R111). -/
  | setNotch (freq q gain : FWord)
  /-- SET.PEAK (R112). -/
  | setPeak (freq q gain : FWord)
  /-- SET.LOWSHELF (R113). -/
  | setLowShelf (freq q gain : FWord)
  /-- SET.HIGHSHELF (R114). -/
  | setHighShelf (freq q gain : FWord)
  /-- SET.ALLPASS (R115). -/
  | setAllPass (freq q gain : FWord)
  /-- PROCESS `in_len, out_len` (42_process_section.md R121). -/
  | process (inLen outLen : Len)
  /-- RESET (41_configuration_commands.md R117). -/
  | reset
  deriving DecidableEq, Repr

end Sys2Proof
end

