-- ==== Sys2Proof/Decode.lean ====
section
/-! DEFINITION. The decoder of packed command words (30_encoding.md R57 to R62), then the encoder, both written from the same
layouts. There is no illegal and no reserved encoding (R70), so the decoder refuses nothing. -/

namespace Sys2Proof

/-- `CMD[lo+len-1:lo]` as a number (00_scope.md R9). -/
def cmdField (w : Cmd) (lo len : Nat) : Nat := w.toNat / 2 ^ lo % 2 ^ len

/-- The type named by the header bits `H[4:2]` (30_encoding.md R55), given from bit 4 down to bit 2. -/
def decodeType (h4 h3 h2 : Bool) : FilterType :=
  match h4, h3, h2 with
  | false, false, false => .lowPass
  | false, false, true => .highPass
  | false, true, false => .bandPass
  | false, true, true => .notch
  | true, false, false => .peak
  | true, false, true => .lowShelf
  | true, true, false => .highShelf
  | true, true, true => .allPass

/-- The SET row of a filter type (30_encoding.md R56). -/
def setInstr (t : FilterType) (freq q gain : FWord) : Instr :=
  match t with
  | .lowPass => .setLowPass freq q gain
  | .highPass => .setHighPass freq q gain
  | .bandPass => .setBandPass freq q gain
  | .notch => .setNotch freq q gain
  | .peak => .setPeak freq q gain
  | .lowShelf => .setLowShelf freq q gain
  | .highShelf => .setHighShelf freq q gain
  | .allPass => .setAllPass freq q gain

/-- The command a packed word stands for (30_encoding.md R62): `op = H[1:0]` selects the format, and the fields of that format
are read, at the places of R58 (P), R59 (S), R60 (B) and R61 (R). The `ftype` bits are read for SET only (R69). Bits above
the format's width are no part of the command and are not read (notes/assumptions/15.md). -/
def decode (p : Precision) (w : Cmd) : Instr :=
  match w.getLsbD 1, w.getLsbD 0 with
  | false, false => .prepare (BitVec.ofNat 32 (cmdField w 5 32))
  | false, true =>
    setInstr (decodeType (w.getLsbD 4) (w.getLsbD 3) (w.getLsbD 2))
      (BitVec.ofNat 64 (cmdField w 5 p.width))
      (BitVec.ofNat 64 (cmdField w (5 + p.width) p.width))
      (BitVec.ofNat 64 (cmdField w (5 + 2 * p.width) p.width))
  | true, false =>
    .process (BitVec.ofNat 32 (cmdField w 5 32)) (BitVec.ofNat 32 (cmdField w 37 32))
  | true, true => .reset

/-- The decoder on a packed word numbered as spec/opcode_table.json numbers it, for the instance `State.reset` builds. A
packed word is one whole record (30_encoding.md R57), so there are no bytes to order (20_memory.md R44). -/
def decodeTableWord (nbits w : Nat) : Option Instr :=
  some (decode Config.params.precision (BitVec.ofNat 197 (w % 2 ^ nbits)))

/-- `ftype ++ op` (30_encoding.md R57). -/
def header (ftype op : Nat) : Nat := ftype * 4 + op

/-- `gain ++ q ++ freq ++ H` (30_encoding.md R59). -/
def encodeSet (p : Precision) (ftype : Nat) (freq q gain : FWord) : Cmd :=
  BitVec.ofNat 197
    ((((p.cut gain).toNat * 2 ^ p.width + (p.cut q).toNat) * 2 ^ p.width + (p.cut freq).toNat) * 2 ^ 5 + header ftype 1)

/-- The packed word of a command (30_encoding.md R58 to R61), with zeros in the ignored bits, as a host should send them (R69). -/
def encode (p : Precision) : Instr → Cmd
  | .prepare rate => BitVec.ofNat 197 (rate.toNat * 2 ^ 5 + header 0 0)
  | .setLowPass freq q gain => encodeSet p 0 freq q gain
  | .setHighPass freq q gain => encodeSet p 1 freq q gain
  | .setBandPass freq q gain => encodeSet p 2 freq q gain
  | .setNotch freq q gain => encodeSet p 3 freq q gain
  | .setPeak freq q gain => encodeSet p 4 freq q gain
  | .setLowShelf freq q gain => encodeSet p 5 freq q gain
  | .setHighShelf freq q gain => encodeSet p 6 freq q gain
  | .setAllPass freq q gain => encodeSet p 7 freq q gain
  | .process inLen outLen => BitVec.ofNat 197 ((outLen.toNat * 2 ^ 32 + inLen.toNat) * 2 ^ 5 + header 0 2)
  | .reset => BitVec.ofNat 197 (header 0 3)

end Sys2Proof
end

