-- ==== Sys2Proof/Machine/Float.lean ====
section
/-! DEFINITION. The floating-point primitives of 00_scope.md R11, R12 and R14: each computes the exact result on whole numbers
and rounds it once, to nearest, ties to even (R11, 92_eei_decisions.md D8). Values are counted in units of
`2 ^ (-scaleBits)`. The argument `nan` of a primitive is the draw of the NaN it may produce (R13). -/

namespace Sys2Proof

/-- The draws of one sample step or one SET: operation number to draw (notes/assumptions/8.md). -/
abbrev Draws := Nat → FWord

/-- Exponent-and-fraction bits of the element of `F_P` nearest to `n / d` (with `d > 0`), ties to even. `k` is the exponent of
the spacing of `F_P` at `n / d`. The significand `m` added to `k` spacings of the exponent field carries into the exponent by
itself. What would lie above the largest finite value is an infinity. -/
def Precision.roundMag (p : Precision) (n d : Nat) : Nat :=
  let k := Nat.log2 (n / d) - p.fracBits
  let unit := d * 2 ^ k
  let m := n / unit
  let r := n % unit
  let up := decide (unit < 2 * r) || (decide (2 * r = unit) && decide (m % 2 = 1))
  min (k * 2 ^ p.fracBits + if up then m + 1 else m) p.infMag

/-- Floor of the square root of `n`, two bits of `n` for one bit of the root, when `n < 4 ^ fuel`. -/
def isqrt : Nat → Nat → Nat
  | 0, _ => 0
  | fuel + 1, n =>
    let r := 2 * isqrt fuel (n / 4)
    if (r + 1) * (r + 1) ≤ n then r + 1 else r

/-- `fneg(a)`: "flips the sign bit and never rounds" (00_scope.md R11). -/
def fneg (p : Precision) (a : FWord) : FWord := p.mkWord (!p.signBit a) (p.magBits a)

/-- The element of `F_P` nearest to a whole number `v` of units. A zero `v` is an exact zero and takes the sign `zeroNeg`. -/
def Precision.roundInt (p : Precision) (zeroNeg : Bool) (v : Int) : FWord :=
  if v = 0 then p.zeroWord zeroNeg else p.mkWord (decide (v < 0)) (p.roundMag v.natAbs 1)

/-- `fadd(a, b)` (00_scope.md R11). A sum that is exactly zero is `-0` only when both operands are negative
(notes/assumptions/22.md). -/
def fadd (p : Precision) (nan a b : FWord) : FWord :=
  if p.isNaN a || p.isNaN b then p.nanWord nan
  else if p.isInf a then
    if p.isInf b && (p.signBit a != p.signBit b) then p.nanWord nan else p.infWord (p.signBit a)
  else if p.isInf b then p.infWord (p.signBit b)
  else p.roundInt (p.signBit a && p.signBit b) (p.scaledInt a + p.scaledInt b)

/-- `fsub(a, b)` (00_scope.md R11): the sum of `a` and `b` with its sign flipped. -/
def fsub (p : Precision) (nan a b : FWord) : FWord :=
  fadd p nan a (fneg p b)

/-- `fmul(a, b)` (00_scope.md R11). -/
def fmul (p : Precision) (nan a b : FWord) : FWord :=
  let neg := p.signBit a != p.signBit b
  if p.isNaN a || p.isNaN b then p.nanWord nan
  else if p.isInf a || p.isInf b then
    if p.isZero a || p.isZero b then p.nanWord nan else p.infWord neg
  else p.mkWord neg (p.roundMag (p.scaled a * p.scaled b) (2 ^ p.scaleBits))

/-- `fdiv(a, b)` (00_scope.md R11). -/
def fdiv (p : Precision) (nan a b : FWord) : FWord :=
  let neg := p.signBit a != p.signBit b
  if p.isNaN a || p.isNaN b then p.nanWord nan
  else if p.isInf a then
    if p.isInf b then p.nanWord nan else p.infWord neg
  else if p.isInf b then p.zeroWord neg
  else if p.isZero b then
    if p.isZero a then p.nanWord nan else p.infWord neg
  else p.mkWord neg (p.roundMag (p.scaled a * 2 ^ p.scaleBits) (p.scaled b))

/-- `fsqrt(a)` (00_scope.md R11). The root of a zero is that zero. The root of a whole number `v` of units is counted in
units by the root of `v * 2 ^ scaleBits`: its floor `r`, or a number strictly between `r` and `r + 1`, for which `r + 1/2`
stands (the spacing of `F_P` there is more than one unit, so both round alike). -/
def fsqrt (p : Precision) (nan a : FWord) : FWord :=
  if p.isNaN a then p.nanWord nan
  else if p.isZero a then p.zeroWord (p.signBit a)
  else if p.signBit a then p.nanWord nan
  else if p.isInf a then p.infWord false
  else
    let n := p.scaled a * 2 ^ p.scaleBits
    let r := isqrt (Nat.log2 n / 2 + 1) n
    p.mkWord false (p.roundMag (2 * r + if r * r = n then 0 else 1) 2)

/-- `cvt(sr)` (00_scope.md R14): an unsigned whole number to the nearest element of `F_P`, ties to even. The literals of the
engine's rules (1, 2, 10, 40) are made by it, exactly. -/
def cvt (p : Precision) (n : Nat) : FWord := p.mkWord false (p.roundMag (n * 2 ^ p.scaleBits) 1)

/-- `fsin(a)` (00_scope.md R12). -/
def fsin (p : Precision) (a : FWord) : FWord := p.cut (Config.sinWord p (p.cut a))

/-- `fcos(a)` (00_scope.md R12). -/
def fcos (p : Precision) (a : FWord) : FWord := p.cut (Config.cosWord p (p.cut a))

/-- `fpow(a, b)` (00_scope.md R12). -/
def fpow (p : Precision) (a b : FWord) : FWord := p.cut (Config.powWord p (p.cut a) (p.cut b))

end Sys2Proof
end

