-- ==== Sys2Proof/Machine/State.lean ====
section
/-! DEFINITION. The state of one instance (10_state.md), the command port with what the host has queued on it, and the machine
after reset. -/

namespace Sys2Proof.Machine

/-- The coefficient registers, `W` bits each (10_state.md R21). `a0` is implicitly 1 and not stored. -/
structure Coeffs where
  b0 : FWord
  b1 : FWord
  b2 : FWord
  a1 : FWord
  a2 : FWord
  deriving DecidableEq, Repr

/-- The history registers, `W` bits each: the two most recent input and output samples under `DF1` (10_state.md R22), two
partial sums in their place under `DF2T` (R23). -/
inductive History where
  | df1 (x1 x2 y1 y2 : FWord)
  | df2t (s1 s2 : FWord)
  deriving DecidableEq, Repr

/-- Which `SECTION_FORM` has these registers. -/
def History.form : History → SectionForm
  | .df1 _ _ _ _ => .df1
  | .df2t _ _ => .df2t

/-- The history registers of a section form, each `+0` (41_configuration_commands.md R105, R117; 92_eei_decisions.md D16). -/
def History.zero : SectionForm → History
  | .df1 => .df1 0#64 0#64 0#64 0#64
  | .df2t => .df2t 0#64 0#64

/-- The modes of 10_state.md R31. -/
inductive Mode where
  | unprepared
  | preparedUnconfigured
  | configured
  deriving DecidableEq, Repr

/-- The status of a command (30_encoding.md R66): success, or one of the four error classes of 60_exceptions.md R140. -/
inductive Status where
  | ok
  | notPrepared
  | notConfigured
  | invalidParameter
  | lengthMismatch
  deriving DecidableEq, Repr

/-- The response to a command (30_encoding.md R67): the status and, for a successful PROCESS, the output sample words in
index order. -/
structure Response where
  status : Status
  samples : List FWord
  deriving DecidableEq, Repr

/-- How the host laid the two buffers of a PROCESS out (20_memory.md R43). -/
inductive Placement where
  /-- Two separate buffers. -/
  | separate
  /-- One buffer passed as both, element for element. -/
  | same
  /-- The two share storage at a nonzero offset. -/
  | partialOverlap
  deriving DecidableEq, Repr

/-- A command record as the host queues it: the packed word (30_encoding.md R57), and the buffers it hands to a PROCESS
(20_memory.md R40): the elements of `IN` from number 0 on, and what is in `OUT` before. -/
structure Command where
  word : Cmd
  input : List FWord
  output : List FWord
  placement : Placement
  deriving DecidableEq, Repr

/-- What the host can do at the port between commands: issue a command, or assert `rst` (70_reset_and_hazards.md R165, R182). -/
inductive PortEvent where
  | command (c : Command)
  | rst
  deriving DecidableEq, Repr

/-- The state of one instance: the parameters it was built with (00_scope.md R6, R7), the registers and flags of 10_state.md
R20, and the command port. -/
structure State where
  /-- Parameters of the instance. No command writes them. -/
  params : Params
  /-- `b0 b1 b2 a1 a2` (R21). -/
  coeffs : Coeffs
  /-- `x1 x2 y1 y2`, or `s1 s2` (R22, R23). -/
  history : History
  /-- The sample rate in Hz (R27). -/
  sr : Rate
  /-- 1 once a PREPARE has succeeded (R24). -/
  prepared : Bool
  /-- 1 when the coefficient registers hold an active set (R25). -/
  configured : Bool
  /-- What the host has queued on the port, oldest first (notes/assumptions/1.md). -/
  pending : List PortEvent
  /-- Address space `IN` of the present command (20_memory.md R41). -/
  inBuf : List FWord
  /-- Address space `OUT` of the present command (R42). -/
  outBuf : List FWord
  /-- How the two lie to each other (R43). -/
  placement : Placement
  /-- The response to the last command, none before the first (30_encoding.md R67). -/
  response : Option Response
  /-- The model's own counter: the number of the next draw of free values (notes/assumptions/9.md). -/
  draws : Nat
  deriving DecidableEq, Repr

/-- Why the machine would stop by itself: it never does. "There is no fatal/unrecoverable error class"
(60_exceptions.md R140), and "every command returns a status in every state" (93_implementation_defined.md, end of part 1).
So there is no constructor (notes/assumptions/19.md). -/
inductive Fault where
  deriving DecidableEq, Repr

/-- Why the model has no move. -/
inductive Refusal where
  /-- Raised by `exec` for an instruction without a meaning. Safe: nothing follows from it. -/
  | notModelled (mnemonic : String)
  /-- Raised by PROCESS when it would move samples between buffers that overlap without coinciding. "A model refuses it"
  (20_memory.md R43, 93_implementation_defined.md U8). Safe: no claim covers such a run. -/
  | partialOverlap
  deriving DecidableEq, Repr

/-- An instance built with parameters `c`, right after hardware reset (10_state.md R34): flags 0, and the registers DOC leaves
unspecified at the spec's chosen `+0` and 0. -/
def State.resetWith (c : Params) : State :=
  { params := c
    coeffs := ⟨0#64, 0#64, 0#64, 0#64, 0#64⟩
    history := History.zero c.sectionForm
    sr := 0#32
    prepared := false
    configured := false
    pending := []
    inBuf := []
    outBuf := []
    placement := .separate
    response := none
    draws := 0 }

/-- The machine right after reset (10_state.md R34), as the instance of `Config.params`. -/
def State.reset : State := State.resetWith Config.params

end Sys2Proof.Machine
end

