-- ==== Sys2Proof/Machine/Engine.lean ====
section
/-! DEFINITION. `filter_coefficient_engine`: `derive` and its parts, in the evaluation order of 40_coefficient_engine.md. The
numbers given to `d` only name the operation whose NaN a draw decides. -/

namespace Sys2Proof.Machine

/-- The six raw values of a type (40_coefficient_engine.md R75). -/
structure Raw where
  b0 : FWord
  b1 : FWord
  b2 : FWord
  a0 : FWord
  a1 : FWord
  a2 : FWord
  deriving DecidableEq, Repr

/-- The three checks (40_coefficient_engine.md R76, R77, R78): every operand finite, `0 < freq < sr/2`, `0 < q`. The gain is
checked for finiteness whatever the type, and no more. -/
def validOperands (p : Precision) (sr : Rate) (freq q gain : FWord) : Bool :=
  p.finite freq && p.finite q && p.finite gain &&
    p.positive freq && p.belowNyquist sr freq && p.positive q

/-- `w0` (40_coefficient_engine.md R80). -/
def angularFrequency (p : Precision) (d : Draws) (sr : Rate) (freq : FWord) : FWord :=
  let twoPi := fmul p (d 0) (cvt p 2) (Config.piWord p)
  fdiv p (d 2) (fmul p (d 1) twoPi freq) (cvt p sr.toNat)

/-- `alpha = sn / (2*q)` (40_coefficient_engine.md R82). -/
def bandwidth (p : Precision) (d : Draws) (sn q : FWord) : FWord :=
  fdiv p (d 4) sn (fmul p (d 3) (cvt p 2) q)

/-- `A = 10 ^ (gain/40)` (40_coefficient_engine.md R83). -/
def amplitude (p : Precision) (d : Draws) (gain : FWord) : FWord :=
  fpow p (cvt p 10) (fdiv p (d 5) gain (cvt p 40))

/-- `a0r` of the common denominator (40_coefficient_engine.md R85). -/
def commonA0 (p : Precision) (d : Draws) (alpha : FWord) : FWord := fadd p (d 6) (cvt p 1) alpha

/-- `a1r` of the common denominator (R85). -/
def commonA1 (p : Precision) (d : Draws) (cs : FWord) : FWord := fmul p (d 7) (fneg p (cvt p 2)) cs

/-- `a2r` of the common denominator (R85). -/
def commonA2 (p : Precision) (d : Draws) (alpha : FWord) : FWord := fsub p (d 8) (cvt p 1) alpha

/-- LowPass (40_coefficient_engine.md R86). -/
def rawLowPass (p : Precision) (d : Draws) (cs alpha : FWord) : Raw :=
  let omc := fsub p (d 9) (cvt p 1) cs
  let h := fdiv p (d 10) omc (cvt p 2)
  ⟨h, omc, h, commonA0 p d alpha, commonA1 p d cs, commonA2 p d alpha⟩

/-- HighPass (R87). -/
def rawHighPass (p : Precision) (d : Draws) (cs alpha : FWord) : Raw :=
  let opc := fadd p (d 9) (cvt p 1) cs
  let h := fdiv p (d 10) opc (cvt p 2)
  ⟨h, fneg p opc, h, commonA0 p d alpha, commonA1 p d cs, commonA2 p d alpha⟩

/-- BandPass (R88): the numerator is the one `BANDPASS_FORM` names. -/
def rawBandPass (p : Precision) (d : Draws) (form : BandpassForm) (sn cs alpha : FWord) : Raw :=
  let h := match form with
    | .peak0db => alpha
    | .skirt => fdiv p (d 9) sn (cvt p 2)
  ⟨h, 0#64, fneg p h, commonA0 p d alpha, commonA1 p d cs, commonA2 p d alpha⟩

/-- Notch (R89). -/
def rawNotch (p : Precision) (d : Draws) (cs alpha : FWord) : Raw :=
  let a1 := commonA1 p d cs
  ⟨cvt p 1, a1, cvt p 1, commonA0 p d alpha, a1, commonA2 p d alpha⟩

/-- Peak (R90), with the amplitude `a`. -/
def rawPeak (p : Precision) (d : Draws) (a cs alpha : FWord) : Raw :=
  let aA := fmul p (d 9) alpha a
  let ad := fdiv p (d 10) alpha a
  let b1 := fmul p (d 11) (fneg p (cvt p 2)) cs
  ⟨fadd p (d 12) (cvt p 1) aA, b1, fsub p (d 13) (cvt p 1) aA,
    fadd p (d 14) (cvt p 1) ad, b1, fsub p (d 15) (cvt p 1) ad⟩

/-- The shelf terms (40_coefficient_engine.md R84). -/
structure ShelfTerms where
  ap1 : FWord
  am1 : FWord
  ap1c : FWord
  am1c : FWord
  k : FWord
  deriving DecidableEq, Repr

/-- `Ap1`, `Am1`, `Ap1c`, `Am1c` and `k = (2*rA)*alpha` (40_coefficient_engine.md R84). -/
def shelfTerms (p : Precision) (d : Draws) (a cs alpha : FWord) : ShelfTerms :=
  let rA := fsqrt p (d 9) a
  let ap1 := fadd p (d 10) a (cvt p 1)
  let am1 := fsub p (d 11) a (cvt p 1)
  ⟨ap1, am1, fmul p (d 12) ap1 cs, fmul p (d 13) am1 cs,
    fmul p (d 15) (fmul p (d 14) (cvt p 2) rA) alpha⟩

/-- LowShelf (R91), with the amplitude `a`. -/
def rawLowShelf (p : Precision) (d : Draws) (a cs alpha : FWord) : Raw :=
  let t := shelfTerms p d a cs alpha
  let u := fsub p (d 16) t.ap1 t.am1c
  let v := fadd p (d 17) t.ap1 t.am1c
  ⟨fmul p (d 19) a (fadd p (d 18) u t.k),
    fmul p (d 22) (fmul p (d 20) (cvt p 2) a) (fsub p (d 21) t.am1 t.ap1c),
    fmul p (d 24) a (fsub p (d 23) u t.k),
    fadd p (d 25) v t.k,
    fmul p (d 27) (fneg p (cvt p 2)) (fadd p (d 26) t.am1 t.ap1c),
    fsub p (d 28) v t.k⟩

/-- HighShelf (R92), with the amplitude `a`. -/
def rawHighShelf (p : Precision) (d : Draws) (a cs alpha : FWord) : Raw :=
  let t := shelfTerms p d a cs alpha
  let u := fadd p (d 16) t.ap1 t.am1c
  let v := fsub p (d 17) t.ap1 t.am1c
  ⟨fmul p (d 19) a (fadd p (d 18) u t.k),
    fmul p (d 22) (fmul p (d 20) (fneg p (cvt p 2)) a) (fadd p (d 21) t.am1 t.ap1c),
    fmul p (d 24) a (fsub p (d 23) u t.k),
    fadd p (d 25) v t.k,
    fmul p (d 27) (cvt p 2) (fsub p (d 26) t.am1 t.ap1c),
    fsub p (d 28) v t.k⟩

/-- AllPass (R93). -/
def rawAllPass (p : Precision) (d : Draws) (cs alpha : FWord) : Raw :=
  let a0 := commonA0 p d alpha
  let a1 := commonA1 p d cs
  let a2 := commonA2 p d alpha
  ⟨a2, a1, a0, a0, a1, a2⟩

/-- The six raw values of a type (40_coefficient_engine.md R86 to R93). The gain enters the three gain-bearing types only
(R83, 30_encoding.md R55). -/
def rawValues (c : Params) (d : Draws) (t : FilterType) (sn cs alpha gain : FWord) : Raw :=
  let p := c.precision
  match t with
  | .lowPass => rawLowPass p d cs alpha
  | .highPass => rawHighPass p d cs alpha
  | .bandPass => rawBandPass p d c.bandpassForm sn cs alpha
  | .notch => rawNotch p d cs alpha
  | .peak => rawPeak p d (amplitude p d gain) cs alpha
  | .lowShelf => rawLowShelf p d (amplitude p d gain) cs alpha
  | .highShelf => rawHighShelf p d (amplitude p d gain) cs alpha
  | .allPass => rawAllPass p d cs alpha

/-- Five divisions by `a0r`, each rounded once (40_coefficient_engine.md R94). -/
def normalise (p : Precision) (d : Draws) (r : Raw) : Coeffs :=
  ⟨fdiv p (d 40) r.b0 r.a0, fdiv p (d 41) r.b1 r.a0, fdiv p (d 42) r.b2 r.a0,
    fdiv p (d 43) r.a1 r.a0, fdiv p (d 44) r.a2 r.a0⟩

/-- The coefficients of operands that passed the checks (40_coefficient_engine.md R75, R80 to R94). Nothing checks the
results (R96). -/
def cookbook (c : Params) (d : Draws) (t : FilterType) (sr : Rate) (freq q gain : FWord) : Coeffs :=
  let p := c.precision
  let w0 := angularFrequency p d sr freq
  let sn := fsin p w0
  let cs := fcos p w0
  normalise p d (rawValues c d t sn cs (bandwidth p d sn q) gain)

/-- `derive(ftype, sr, freq, q, gain)` (40_coefficient_engine.md R75): five coefficients, or none for `InvalidParameter`. -/
def derive (c : Params) (d : Draws) (t : FilterType) (sr : Rate) (freq q gain : FWord) : Option Coeffs :=
  if validOperands c.precision sr freq q gain then some (cookbook c d t sr freq q gain) else none

end Sys2Proof.Machine
end

