-- ==== Sys2Proof/Machine/Flags.lean ====
section
/-! DEFINITION. The two flags: the mode they stand for, the codes of the status word, and every flag computation. There are no
condition codes and no sticky flags (10_state.md R26). -/

namespace Sys2Proof.Machine

/-- The mode the flags stand for (10_state.md R31). The fourth combination, which R35 shows unreachable, counts as
Unprepared: the commands test `prepared` first (60_exceptions.md R147, R148). -/
def State.mode (s : State) : Mode :=
  match s.prepared, s.configured with
  | false, _ => .unprepared
  | true, false => .preparedUnconfigured
  | true, true => .configured

/-- `configured` after a successful PREPARE: "if PREPARE_CLEARS_CONFIG: configured <- 0" (41_configuration_commands.md R105). -/
def State.configuredAfterPrepare (s : State) : Bool :=
  if s.params.prepareClearsConfig then false else s.configured

/-- The 3-bit code of a status (30_encoding.md R66). -/
def Status.code : Status → BitVec 3
  | .ok => 0#3
  | .notPrepared => 1#3
  | .notConfigured => 2#3
  | .invalidParameter => 3#3
  | .lengthMismatch => 4#3

end Sys2Proof.Machine
end

