-- ==== Sys2Proof/Machine/Ops.lean ====
section
/-! DEFINITION. The named operations the meanings share: answering a command, raising an error, the two address spaces, the
history, the port and `rst`. -/

namespace Sys2Proof.Machine

/-- What a command answers. -/
abbrev Result := Host.Outcome State Fault Refusal

/-- `raise E` (00_scope.md R17): the one way an error is taken. The command ends with status `E`: nothing is saved, no mode
changes and no control moves (60_exceptions.md R150). The status "is its only effect outside the block" (R152). There is no
return operation beside it, "because there is nothing to return from" (R153). -/
def State.raise (e : Status) (s : State) : Result :=
  .next { s with response := some ⟨e, []⟩ }

/-- `return OK` with the output samples, if any (30_encoding.md R67). -/
def State.answer (samples : List FWord) (s : State) : State :=
  { s with response := some ⟨.ok, samples⟩ }

/-- `x1 <- +0; x2 <- +0; y1 <- +0; y2 <- +0`, or `s1 <- +0; s2 <- +0` (41_configuration_commands.md R105, R117). -/
def State.zeroHistory (s : State) : State :=
  { s with history := History.zero s.params.sectionForm }

/-- `In(n)` (00_scope.md R16): one whole sample of `W` bits. An element the host's list does not give is a free value
(notes/assumptions/12.md). -/
def State.inSample (s : State) (n : Nat) : FWord :=
  s.params.precision.cut (s.inBuf.getD n (Config.hostSample s.draws))

/-- A buffer with element `n` set to `v`, and every other element left alone. -/
def putSample (buf : List FWord) (n : Nat) (v : FWord) : List FWord :=
  buf.take n ++ v :: buf.drop (n + 1)

/-- `Out(n) <- v` (00_scope.md R16). Where the host passed one buffer as both, the write is seen in `IN` too (20_memory.md R43). -/
def State.writeOut (s : State) (n : Nat) (v : FWord) : State :=
  { s with
    outBuf := putSample s.outBuf n v
    inBuf := match s.placement with
      | .separate => s.inBuf
      | .same => putSample s.inBuf n v
      | .partialOverlap => s.inBuf }

/-- The block takes the oldest pending command: its buffers become the two address spaces (20_memory.md R40, R49). -/
def State.accept (s : State) (c : Command) (rest : List PortEvent) : State :=
  { s with
    pending := rest
    inBuf := c.input
    outBuf := c.output
    placement := c.placement }

/-- `rst` between commands: the reset state "from any mode" (70_reset_and_hazards.md R165, R167), for the same instance. What
the host still has queued and its buffers are the host's. The draw counter goes on, so that no free value is drawn again. -/
def State.assertRst (s : State) (rest : List PortEvent) : State :=
  { State.resetWith s.params with
    pending := rest
    inBuf := s.inBuf
    outBuf := s.outBuf
    placement := s.placement
    draws := s.draws }

end Sys2Proof.Machine
end

