-- ==== Sys2Proof/Machine/Configure.lean ====
section
/-! DEFINITION. The configuration commands PREPARE, SET (eight types) and RESET (41_configuration_commands.md). -/

namespace Sys2Proof.Machine

/-- PREPARE `rate` (41_configuration_commands.md R105, R106). -/
def execPrepare (rate : Rate) (s : State) : Result :=
  if rate = 0#32 then s.raise .invalidParameter
  else
    .next
      (({ s.zeroHistory with
          sr := rate
          prepared := true
          configured := s.configuredAfterPrepare } : State).answer [])

/-- The rule common to the eight SET rows (41_configuration_commands.md R107): the mode is tested first, then the engine
decides, then all five coefficients and `configured` are written together. A SET that computes uses one draw. -/
def execSet (t : FilterType) (freq q gain : FWord) (s : State) : Result :=
  if s.prepared then
    match derive s.params (Config.nanBits s.draws) t s.sr freq q gain with
    | none => s.raise .invalidParameter
    | some c => .next (({ s with coeffs := c, configured := true, draws := s.draws + 1 } : State).answer [])
  else s.raise .notPrepared

/-- SET.LOWPASS (41_configuration_commands.md R108). -/
def execSetLowPass (freq q gain : FWord) (s : State) : Result := execSet .lowPass freq q gain s

/-- SET.HIGHPASS (R109). -/
def execSetHighPass (freq q gain : FWord) (s : State) : Result := execSet .highPass freq q gain s

/-- SET.BANDPASS (R110). -/
def execSetBandPass (freq q gain : FWord) (s : State) : Result := execSet .bandPass freq q gain s

/-- SET.NOTCH (R111). -/
def execSetNotch (freq q gain : FWord) (s : State) : Result := execSet .notch freq q gain s

/-- SET.PEAK (R112). -/
def execSetPeak (freq q gain : FWord) (s : State) : Result := execSet .peak freq q gain s

/-- SET.LOWSHELF (R113). -/
def execSetLowShelf (freq q gain : FWord) (s : State) : Result := execSet .lowShelf freq q gain s

/-- SET.HIGHSHELF (R114). -/
def execSetHighShelf (freq q gain : FWord) (s : State) : Result := execSet .highShelf freq q gain s

/-- SET.ALLPASS (R115). -/
def execSetAllPass (freq q gain : FWord) (s : State) : Result := execSet .allPass freq q gain s

/-- RESET (41_configuration_commands.md R117): it succeeds in every mode. -/
def execReset (s : State) : Result := .next (s.zeroHistory.answer [])

end Sys2Proof.Machine
end

