-- ==== Sys2Proof/Machine/Section.lean ====
section
/-! DEFINITION. The recurrence section (42_process_section.md): one sample step in the direct form I, which is normative, and
in the transposed direct form II, the alternative. -/

namespace Sys2Proof.Machine

/-- `recur` (42_process_section.md R124): left to right, each product and each sum rounded once, nothing fused. -/
def recur (p : Precision) (d : Draws) (c : Coeffs) (x x1 x2 y1 y2 : FWord) : FWord :=
  let p0 := fmul p (d 0) c.b0 x
  let p1 := fmul p (d 1) c.b1 x1
  let p2 := fmul p (d 2) c.b2 x2
  let p3 := fmul p (d 3) c.a1 y1
  let p4 := fmul p (d 4) c.a2 y2
  let t1 := fadd p (d 5) p0 p1
  let t2 := fadd p (d 6) t1 p2
  let t3 := fsub p (d 7) t2 p3
  fsub p (d 8) t3 p4

/-- `y` of the transposed step (42_process_section.md R129). -/
def transposedOut (p : Precision) (d : Draws) (c : Coeffs) (x s1 : FWord) : FWord :=
  fadd p (d 1) (fmul p (d 0) c.b0 x) s1

/-- `n1` of the transposed step (R129). -/
def transposedSum1 (p : Precision) (d : Draws) (c : Coeffs) (x y s2 : FWord) : FWord :=
  fadd p (d 5) (fsub p (d 4) (fmul p (d 2) c.b1 x) (fmul p (d 3) c.a1 y)) s2

/-- `n2` of the transposed step (R129). -/
def transposedSum2 (p : Precision) (d : Draws) (c : Coeffs) (x y : FWord) : FWord :=
  fsub p (d 8) (fmul p (d 6) c.b2 x) (fmul p (d 7) c.a2 y)

/-- The output sample of a step (42_process_section.md R122, R129). -/
def sectionOut (p : Precision) (d : Draws) (c : Coeffs) (h : History) (x : FWord) : FWord :=
  match h with
  | .df1 x1 x2 y1 y2 => recur p d c x x1 x2 y1 y2
  | .df2t s1 _ => transposedOut p d c x s1

/-- The history after a step that consumed `x` and produced `y`, all registers written together (42_process_section.md R122, R129). -/
def sectionNext (p : Precision) (d : Draws) (c : Coeffs) (h : History) (x y : FWord) : History :=
  match h with
  | .df1 x1 _ y1 _ => .df1 x x1 y y1
  | .df2t _ s2 => .df2t (transposedSum1 p d c x y s2) (transposedSum2 p d c x y)

end Sys2Proof.Machine
end

