-- ==== Sys2Proof/Machine/Process.lean ====
section
/-! DEFINITION. PROCESS (42_process_section.md R121): the one command that moves samples. -/

namespace Sys2Proof.Machine

/-- The output sample of step `n` of a burst: `In(n)`, the coefficients and the history as the state holds them
(20_memory.md R50). -/
def State.sampleOut (s : State) (n : Nat) : FWord :=
  sectionOut s.params.precision (Config.nanBits s.draws) s.coeffs s.history (s.inSample n)

/-- Step `n` of a burst (20_memory.md R50): read `In(n)`, compute, write the history, write `Out(n)`. It uses one draw. -/
def State.sampleStep (s : State) (n : Nat) : State :=
  let x := s.inSample n
  let y := s.sampleOut n
  ({ s with
      history := sectionNext s.params.precision (Config.nanBits s.draws) s.coeffs s.history x y
      draws := s.draws + 1 } : State).writeOut n y

/-- Steps `n, n+1, ..., n+k-1` in that order: the state they leave, and the output samples in index order. -/
def burst : Nat → Nat → State → State × List FWord
  | 0, _, s => (s, [])
  | k + 1, n, s =>
    let rest := burst k (n + 1) (s.sampleStep n)
    (rest.1, s.sampleOut n :: rest.2)

/-- PROCESS `in_len, out_len` (42_process_section.md R121): the tests in the order of 60_exceptions.md R148, all before the
first read and the first write, and then the burst. Buffers that overlap without coinciding have no meaning (20_memory.md R43)
once a sample would move. -/
def execProcess (inLen outLen : Len) (s : State) : Result :=
  if !s.prepared then s.raise .notPrepared
  else if !s.configured then s.raise .notConfigured
  else if inLen ≠ outLen then s.raise .lengthMismatch
  else if s.placement = .partialOverlap ∧ inLen ≠ 0#32 then .refused .partialOverlap
  else
    let done := burst inLen.toNat 0 s
    .next (done.1.answer done.2)

end Sys2Proof.Machine
end

