-- ==== Sys2Proof/Machine/Dispatch.lean ====
section
/-! DEFINITION. One arm per command: the meaning each constructor of Instr has. -/

namespace Sys2Proof.Machine

def exec (i : Instr) (s : State) : Host.Outcome State Fault Refusal :=
  match i with
  | .prepare rate => Sys2Proof.Machine.execPrepare rate s
  | .setLowPass freq q gain => Sys2Proof.Machine.execSetLowPass freq q gain s
  | .setHighPass freq q gain => Sys2Proof.Machine.execSetHighPass freq q gain s
  | .setBandPass freq q gain => Sys2Proof.Machine.execSetBandPass freq q gain s
  | .setNotch freq q gain => Sys2Proof.Machine.execSetNotch freq q gain s
  | .setPeak freq q gain => Sys2Proof.Machine.execSetPeak freq q gain s
  | .setLowShelf freq q gain => Sys2Proof.Machine.execSetLowShelf freq q gain s
  | .setHighShelf freq q gain => Sys2Proof.Machine.execSetHighShelf freq q gain s
  | .setAllPass freq q gain => Sys2Proof.Machine.execSetAllPass freq q gain s
  | .process inLen outLen => Sys2Proof.Machine.execProcess inLen outLen s
  | .reset => Sys2Proof.Machine.execReset s

end Sys2Proof.Machine
end

