-- ==== Sys2Proof/Machine/Step.lean ====
section
/-! DEFINITION. One step of the machine: the oldest thing on the port, or nothing. -/

namespace Sys2Proof.Machine

/-- One step. A pending command is taken from the port, decoded for the instance's precision and executed to completion
(20_memory.md R49). A pending `rst` resets the instance (70_reset_and_hazards.md R165). With nothing pending the block "is idle
with its state held" (60_exceptions.md R158, 10_state.md R37). -/
def step (s : State) : Host.Outcome State Fault Refusal :=
  match s.pending with
  | [] => .next s
  | .rst :: rest => .next (s.assertRst rest)
  | .command c :: rest => exec (decode s.params.precision c.word) (s.accept c rest)

/-- The packed word `w` of `nbits` bits, with no buffers, put at the front of the port, where `step` takes its next command
(notes/assumptions/2.md). -/
def State.withFetchWord (s : State) (nbits w : Nat) : State :=
  { s with
    pending :=
      .command ⟨BitVec.ofNat 197 (w % 2 ^ nbits), [], [], .separate⟩ :: s.pending }

end Sys2Proof.Machine
end

