-- ==== Sys2Proof/WellFormed.lean ====
section
/-! DEFINITION. Which commands an instance of precision `p` can be given: the operand words have `W` bits. -/

namespace Sys2Proof

/-- "An instance of one precision has no way to accept an operand of the other" (30_encoding.md R64): the three operand
words of a SET have `W` bits. Every other operand is whole by its type, and every value of it is legal (R70). -/
def Instr.wf (p : Precision) : Instr → Bool
  | .prepare _ => true
  | .setLowPass freq q gain => p.fits freq && p.fits q && p.fits gain
  | .setHighPass freq q gain => p.fits freq && p.fits q && p.fits gain
  | .setBandPass freq q gain => p.fits freq && p.fits q && p.fits gain
  | .setNotch freq q gain => p.fits freq && p.fits q && p.fits gain
  | .setPeak freq q gain => p.fits freq && p.fits q && p.fits gain
  | .setLowShelf freq q gain => p.fits freq && p.fits q && p.fits gain
  | .setHighShelf freq q gain => p.fits freq && p.fits q && p.fits gain
  | .setAllPass freq q gain => p.fits freq && p.fits q && p.fits gain
  | .process _ _ => true
  | .reset => true

end Sys2Proof
end

