-- ==== Sys2Proof/Safety.lean ====
section
/-! DEFINITION. The terms claims are stated in: the real value of a word, correct rounding, which operands a SET accepts, which
states are legal, what the host observes. -/

namespace Sys2Proof

/-- `real(v)` of a finite word (00_scope.md R10). -/
def Precision.real (p : Precision) (w : FWord) : ℚ := (p.scaledInt w : ℚ) / 2 ^ p.scaleBits

/-- Half way between the largest finite value and the next value a wider exponent would give: from here on, rounding to
nearest gives an infinity. -/
def Precision.overflowBound (p : Precision) : ℚ :=
  (2 ^ (p.fracBits + 2) - 1) * 2 ^ (2 ^ p.expBits - 4) / 2 ^ p.scaleBits

/-- `r` is the real number `x` "rounded once to `F_P`" (00_scope.md R11), to nearest, ties to even (92_eei_decisions.md D8): no
finite value is nearer, and one that is as near as `r` and is not `r` leaves `r` the even fraction. From the overflow bound on
`r` is the infinity of the sign of `x`. -/
def Precision.RoundsTo (p : Precision) (x : ℝ) (r : FWord) : Prop :=
  (|x| < (p.overflowBound : ℝ) ∧ p.finite r = true ∧
    ∀ v, p.finite v = true →
      |(p.real r : ℝ) - x| ≤ |(p.real v : ℝ) - x| ∧
        (|(p.real r : ℝ) - x| = |(p.real v : ℝ) - x| → p.real v ≠ p.real r → p.magBits r % 2 = 0)) ∨
  ((p.overflowBound : ℝ) ≤ |x| ∧ r = p.infWord (decide (x < 0)))

/-- The operands the engine accepts (40_coefficient_engine.md R76, R77, R78), over real numbers. -/
def Accepted (p : Precision) (sr : Rate) (freq q gain : FWord) : Prop :=
  p.finite freq = true ∧ p.finite q = true ∧ p.finite gain = true ∧
    0 < p.real freq ∧ 2 * p.real freq < (sr.toNat : ℚ) ∧ 0 < p.real q

/-- The filter type of a SET row, none for the other commands (30_encoding.md R56). -/
def Instr.filterType : Instr → Option FilterType
  | .prepare _ => none
  | .setLowPass _ _ _ => some .lowPass
  | .setHighPass _ _ _ => some .highPass
  | .setBandPass _ _ _ => some .bandPass
  | .setNotch _ _ _ => some .notch
  | .setPeak _ _ _ => some .peak
  | .setLowShelf _ _ _ => some .lowShelf
  | .setHighShelf _ _ _ => some .highShelf
  | .setAllPass _ _ _ => some .allPass
  | .process _ _ => none
  | .reset => none

/-- The packed width of a command's format (30_encoding.md R57). -/
def Instr.packedWidth (p : Precision) : Instr → Nat
  | .prepare _ => 37
  | .setLowPass _ _ _ => 5 + 3 * p.width
  | .setHighPass _ _ _ => 5 + 3 * p.width
  | .setBandPass _ _ _ => 5 + 3 * p.width
  | .setNotch _ _ _ => 5 + 3 * p.width
  | .setPeak _ _ _ => 5 + 3 * p.width
  | .setLowShelf _ _ _ => 5 + 3 * p.width
  | .setHighShelf _ _ _ => 5 + 3 * p.width
  | .setAllPass _ _ _ => 5 + 3 * p.width
  | .process _ _ => 69
  | .reset => 5

namespace Machine

/-- Five coefficients of the same value, the bit patterns of NaNs apart (00_scope.md R13). -/
def Coeffs.same (p : Precision) (c d : Coeffs) : Prop :=
  p.same c.b0 d.b0 ∧ p.same c.b1 d.b1 ∧ p.same c.b2 d.b2 ∧ p.same c.a1 d.a1 ∧ p.same c.a2 d.a2

/-- Histories of the same form and value, the bit patterns of NaNs apart. -/
def History.same (p : Precision) : History → History → Prop
  | .df1 x1 x2 y1 y2, .df1 u1 u2 v1 v2 => p.same x1 u1 ∧ p.same x2 u2 ∧ p.same y1 v1 ∧ p.same y2 v2
  | .df2t s1 s2, .df2t u1 u2 => p.same s1 u1 ∧ p.same s2 u2
  | .df1 _ _ _ _, .df2t _ _ => False
  | .df2t _ _, .df1 _ _ _ _ => False

/-- Every word of the coefficient registers passes a test. -/
def Coeffs.all (f : FWord → Bool) (c : Coeffs) : Bool := f c.b0 && f c.b1 && f c.b2 && f c.a1 && f c.a2

/-- Every word of the history registers passes a test. -/
def History.all (f : FWord → Bool) : History → Bool
  | .df1 x1 x2 y1 y2 => f x1 && f x2 && f y1 && f y2
  | .df2t s1 s2 => f s1 && f s2

/-- The invariants (i) and (ii) of 10_state.md R35, and that the history registers are those of the instance's
`SECTION_FORM` (R22, R23). -/
def State.legal (s : State) : Bool :=
  (!s.configured || s.prepared) && (!s.prepared || decide (1 ≤ s.sr.toNat)) &&
    decide (s.history.form = s.params.sectionForm)

/-- The registers hold words of `W` bits (10_state.md R21, R22, R23). -/
def State.wordsFit (s : State) : Bool :=
  s.coeffs.all s.params.precision.fits && s.history.all s.params.precision.fits

/-- The invariant (iii) of 10_state.md R35: active coefficients are the five results of one successful `derive`, made with the
present `sr` when `PREPARE_CLEARS_CONFIG` is true and with some rate when it is false. -/
def State.FromEngine (s : State) : Prop :=
  s.configured = true →
    ∃ d t sr freq q gain, derive s.params d t sr freq q gain = some s.coeffs ∧
      (s.params.prepareClearsConfig = true → sr = s.sr)

/-- The samples a PROCESS of `n` samples reads when nothing overwrites its input: what the host listed, cut to `W` bits, and
free values for what it did not list. -/
def State.input (s : State) (n : Nat) : List FWord :=
  (List.range n).map fun k => s.params.precision.cut (s.inBuf.getD k (Config.hostSample (s.draws + k)))

/-- The recurrence section over a list of input samples (42_process_section.md R121): the history it leaves and the output
samples. Step `n` of the list uses the draws `d n`. -/
def filterList (p : Precision) (d : Nat → Draws) (c : Coeffs) : History → Nat → List FWord → History × List FWord
  | h, _, [] => (h, [])
  | h, n, x :: xs =>
    let y := sectionOut p (d n) c h x
    let rest := filterList p d c (sectionNext p (d n) c h x y) (n + 1) xs
    (rest.1, y :: rest.2)

/-- The status of the last response. -/
def State.status (s : State) : Option Status := s.response.map Response.status

/-- What the host gets back from `k` steps, one entry a step (10_state.md R28): the response the port shows after it. It ends
where the model has no move. -/
def State.observed : Nat → State → List (Option Response)
  | 0, _ => []
  | k + 1, s =>
    match step s with
    | .next t => t.response :: State.observed k t
    | .fault _ => []
    | .refused _ => []

end Machine

end Sys2Proof
end

