-- ==== Sys2Proof/Certificates/Slice0/Obligations.lean ====
section
/-! DEFINITION. The statements for the provers, by file of the spec: encoding, reset and step, invariants, the commands, the
section, arithmetic. `R<n>` is a rule of spec/, `D<n>` a decision of 92_eei_decisions.md. -/

open Sys2Proof Sys2Proof.Machine

/-! ### Encoding (30_encoding.md) -/

/-- Every header names exactly one row (R62, the codes of D2 and D3): the row's pattern of the low bits decides the command, for
every packed word. -/
def Obligations.HeaderSelectsTheRow : Prop :=
  ∀ (p : Precision) (w : Cmd),
    (w.toNat % 4 = 0 → ∃ rate, decode p w = .prepare rate) ∧
    (w.toNat % 32 = 1 → ∃ f q g, decode p w = .setLowPass f q g) ∧
    (w.toNat % 32 = 5 → ∃ f q g, decode p w = .setHighPass f q g) ∧
    (w.toNat % 32 = 9 → ∃ f q g, decode p w = .setBandPass f q g) ∧
    (w.toNat % 32 = 13 → ∃ f q g, decode p w = .setNotch f q g) ∧
    (w.toNat % 32 = 17 → ∃ f q g, decode p w = .setPeak f q g) ∧
    (w.toNat % 32 = 21 → ∃ f q g, decode p w = .setLowShelf f q g) ∧
    (w.toNat % 32 = 25 → ∃ f q g, decode p w = .setHighShelf f q g) ∧
    (w.toNat % 32 = 29 → ∃ f q g, decode p w = .setAllPass f q g) ∧
    (w.toNat % 4 = 2 → ∃ a b, decode p w = .process a b) ∧
    (w.toNat % 4 = 3 → decode p w = .reset)

/-- Decoding the packed word of a well-formed command gives the command back, at both precisions, with every operand at every
value (R58 to R61). -/
def Obligations.DecodeUndoesEncode : Prop :=
  ∀ (p : Precision) (i : Instr), i.wf p = true → decode p (encode p i) = i

/-- Every packed word of its format's width, with zeros in the ignored bits, is the one encoding of what it decodes to; and an
encoding has its format's width (R57, R69). -/
def Obligations.EncodeUndoesDecode : Prop :=
  ∀ p : Precision,
    (∀ w : Cmd, w.toNat < 2 ^ (decode p w).packedWidth p →
      ((decode p w).filterType = none → w.toNat / 4 % 8 = 0) → encode p (decode p w) = w) ∧
    (∀ i : Instr, (encode p i).toNat < 2 ^ i.packedWidth p)

/-- Outside SET the three `ftype` bits of the header are ignored (R69, D23): two words that differ in them only are the same
command. -/
def Obligations.IgnoredTypeBitsChangeNothing : Prop :=
  ∀ (p : Precision) (v w : Cmd), (decode p v).filterType = none → v.toNat % 4 = w.toNat % 4 → v.toNat / 32 = w.toNat / 32 →
    decode p v = decode p w

/-- A few packed words of 95_test_vectors.md (X1, X5, X14, X15, X16, X19, X20) decode to the commands they stand for. -/
def Obligations.PrintedWordsDecode : Prop :=
  decode .binary64 0x158880#197 = .prepare 44100#32 ∧
  decode .binary64 0x158894#197 = .prepare 44100#32 ∧
  decode .binary32 0x818000007F00000088F400011#197 = .setPeak 0x447A0000#64 0x3F800000#64 0x40C00000#64 ∧
  decode .binary64 0x7FE0000000000000800000000000000080B20000000000011#197 =
    .setPeak 0x4059000000000000#64 0x4000000000000000#64 0x3FF0000000000000#64 ∧
  decode .binary64 0xC8000000C82#197 = .process 100#32 100#32 ∧
  decode .binary64 0x400000005E#197 = .process 2#32 2#32 ∧
  decode .binary64 0x3#197 = .reset

/-- The status codes (R66, D4), and which command answers which status (60_exceptions.md R145): every command that answers
leaves a status, and 5, 6, 7 are never produced. -/
def Obligations.StatusesOfEachCommand : Prop :=
  Status.ok.code = 0#3 ∧ Status.notPrepared.code = 1#3 ∧ Status.notConfigured.code = 2#3 ∧
  Status.invalidParameter.code = 3#3 ∧ Status.lengthMismatch.code = 4#3 ∧
  (∀ (i : Instr) (s t : State), exec i s = .next t →
    (∃ e, t.status = some e ∧ e.code.toNat ≤ 4) ∧
    (∀ rate, i = .prepare rate → t.status = some .ok ∨ t.status = some .invalidParameter) ∧
    (∀ ty, i.filterType = some ty →
      t.status = some .ok ∨ t.status = some .notPrepared ∨ t.status = some .invalidParameter) ∧
    (∀ a b, i = .process a b →
      t.status = some .ok ∨ t.status = some .notPrepared ∨ t.status = some .notConfigured ∨
        t.status = some .lengthMismatch) ∧
    (i = .reset → t.status = some .ok))

/-! ### Reset and the step (10_state.md, 70_reset_and_hazards.md) -/

/-- The state after reset (10_state.md R34): flags 0, whatever the instance. The registers hold `+0` and `sr` 0, which is the
spec's own decision D17 (notes/assumptions/5.md), and nothing is pending or answered (notes/assumptions/1.md, 19.md). -/
def Obligations.ResetLeavesFlagsAndRegistersClear : Prop :=
  (∀ c : Params,
    (State.resetWith c).mode = .unprepared ∧ (State.resetWith c).prepared = false ∧
    (State.resetWith c).configured = false ∧ (State.resetWith c).sr = 0#32 ∧
    (State.resetWith c).coeffs = ⟨0#64, 0#64, 0#64, 0#64, 0#64⟩ ∧
    (State.resetWith c).history = History.zero c.sectionForm ∧ (State.resetWith c).pending = [] ∧
    (State.resetWith c).response = none) ∧
  State.reset = State.resetWith Config.params

/-- A step with `rst` at the front of the port completes from every mode and leaves the reset state of the same instance (R165,
R167, D22); what the host has queued and its buffers stay, and the draw counter goes on (notes/assumptions/4.md). -/
def Obligations.RstReturnsToTheResetState : Prop :=
  ∀ (s : State) (rest : List PortEvent), s.pending = .rst :: rest →
    step s = .next { State.resetWith s.params with
      pending := rest
      inBuf := s.inBuf
      outBuf := s.outBuf
      placement := s.placement
      draws := s.draws }

/-- A step takes the oldest pending command, makes its buffers the two address spaces, and is `exec` of what its word decodes to
(20_memory.md R40, R49). Nothing else is done around `exec`. -/
def Obligations.StepRunsTheDecodedCommand : Prop :=
  ∀ (s : State) (c : Command) (rest : List PortEvent) (i : Instr),
    s.pending = .command c :: rest → decode s.params.precision c.word = i →
      step s = exec i { s with
        pending := rest
        inBuf := c.input
        outBuf := c.output
        placement := c.placement }

/-- With nothing pending nothing changes: between commands "nothing decays, nothing is refreshed and nothing changes by
itself" (10_state.md R37; 60_exceptions.md R158). -/
def Obligations.IdleStepChangesNothing : Prop :=
  ∀ s : State, s.pending = [] → step s = .next s

/-- The machine always has a move, but for one case (60_exceptions.md R150; 93_implementation_defined.md, end of part 1): a
PROCESS that passes its checks and would move samples between buffers that overlap without coinciding is refused, as
20_memory.md R43 (D20) has a model do; one that fails its checks, or moves no sample, answers. -/
def Obligations.EveryStepAnswersButPartialOverlap : Prop :=
  ∀ s : State,
    ((∃ t, step s = .next t) ∨ step s = .refused .partialOverlap) ∧
    (step s = .refused .partialOverlap ↔
      ∃ c rest n, s.pending = .command c :: rest ∧ c.placement = .partialOverlap ∧
        decode s.params.precision c.word = .process n n ∧ n ≠ 0#32 ∧ s.prepared = true ∧ s.configured = true)

/-- The parameters of an instance never change (00_scope.md R6, R7). -/
def Obligations.NoStepChangesTheParameters : Prop :=
  ∀ s t : State, step s = .next t → t.params = s.params

/-! ### Invariants (10_state.md R35) -/

/-- The invariants hold at reset, for every instance. -/
def Obligations.InvariantsHoldAtReset : Prop :=
  ∀ c : Params, (State.resetWith c).legal = true ∧ (State.resetWith c).wordsFit = true ∧ (State.resetWith c).FromEngine

/-- Every step keeps R35 (i) `configured` implies `prepared`, (ii) `prepared` implies `1 <= sr`, and that the history registers
are those of the instance's `SECTION_FORM` (R22, R23). -/
def Obligations.EveryStepKeepsLegalStates : Prop :=
  ∀ s t : State, s.legal = true → step s = .next t → t.legal = true

/-- Every step keeps R35 (iii): active coefficients are the five results of one successful `derive`, under
`PREPARE_CLEARS_CONFIG` made with the present `sr`. -/
def Obligations.EveryStepKeepsCoefficientsFromOneDerive : Prop :=
  ∀ s t : State, s.FromEngine → step s = .next t → t.FromEngine

/-- Every step keeps the coefficient and history registers words of `W` bits (R21 to R23; that a word is held in 64 bits is the
model's choice, notes/assumptions/7.md). -/
def Obligations.EveryStepKeepsWordsOfWBits : Prop :=
  ∀ s t : State, s.wordsFit = true → step s = .next t → t.wordsFit = true

/-- No sequence of commands returns a status or an output sample that depends on the values the registers hold after reset (R36):
two unprepared, unconfigured states that differ in the coefficients, the history and `sr` only are observed alike, over any
number of steps. -/
def Obligations.ResetRegisterValuesAreUnobservable : Prop :=
  ∀ (s : State) (c : Coeffs) (h : History) (r : Rate) (k : Nat),
    s.prepared = false → s.configured = false →
      State.observed k { s with coeffs := c, history := h, sr := r } = State.observed k s

/-! ### Registers and modes (10_state.md) -/

/-- R21: the coefficient registers are written only by a successful SET, all five together with `derive`'s results. -/
def Obligations.CoefficientsAreWrittenBySetOnly : Prop :=
  ∀ (i : Instr) (s t : State), exec i s = .next t → t.coeffs ≠ s.coeffs →
    t.status = some .ok ∧
      ∃ ty f q g d, i = setInstr ty f q g ∧ derive s.params d ty s.sr f q g = some t.coeffs

/-- R22, R23: the history is zeroed by a successful PREPARE and by RESET, written by a successful PROCESS, and touched by nothing
else. -/
def Obligations.HistoryIsWrittenByProcessPrepareReset : Prop :=
  ∀ (i : Instr) (s t : State), exec i s = .next t → t.history ≠ s.history →
    t.status = some .ok ∧
      ((∃ a, i = .process a a) ∨
        ((i = .reset ∨ ∃ rate, i = .prepare rate) ∧ t.history = History.zero s.params.sectionForm))

/-- R24: `prepared` is set to 1 by a successful PREPARE, no command clears it, a failing PREPARE leaves it, only `rst` makes it
0, and SET and PROCESS fail with `NotPrepared` when it is 0. (That `rst` is an event at the head of
the port, in the two clauses on `step`, is the model's choice after the spec's decision D22: notes/assumptions/4.md.) -/
def Obligations.PreparedIsSetByPrepareAndClearedByRstOnly : Prop :=
  ∀ s : State,
    (∀ rate, rate ≠ 0#32 → ∃ t, exec (.prepare rate) s = .next t ∧ t.status = some .ok ∧ t.prepared = true) ∧
    (∀ i t, exec i s = .next t → s.prepared = true → t.prepared = true) ∧
    (∀ i t, exec i s = .next t → t.prepared ≠ s.prepared → ∃ rate, i = .prepare rate ∧ t.status = some .ok) ∧
    (∃ t, exec (.prepare 0#32) s = .next t ∧ t.prepared = s.prepared) ∧
    (∀ t, step s = .next t → s.prepared = true → t.prepared = false → ∃ rest, s.pending = .rst :: rest) ∧
    (∀ rest, s.pending = .rst :: rest → ∃ t, step s = .next t ∧ t.prepared = false) ∧
    (s.prepared = false →
      (∀ ty f q g, ∃ t, exec (setInstr ty f q g) s = .next t ∧ t.status = some .notPrepared) ∧
      (∀ a b, ∃ t, exec (.process a b) s = .next t ∧ t.status = some .notPrepared))

/-- R27: `sr` is written only by a successful PREPARE, with its operand, and 0 is never stored. -/
def Obligations.SampleRateIsWrittenByPrepareOnly : Prop :=
  ∀ (i : Instr) (s t : State), exec i s = .next t → t.sr ≠ s.sr →
    t.status = some .ok ∧ t.sr ≠ 0#32 ∧ i = .prepare t.sr

/-- R32: the mode changes as the table says and in no other way, in every legal state, and a PREPARE from any mode enters with the
fresh rate and a cleared history. -/
def Obligations.ModeTransitionsFollowTheTable : Prop :=
  ∀ s : State, s.legal = true →
    (∀ rate, rate ≠ 0#32 → ∃ t, exec (.prepare rate) s = .next t ∧
      (t.mode = if s.params.prepareClearsConfig = false ∧ s.mode = .configured then .configured
        else .preparedUnconfigured) ∧ t.status = some .ok ∧ t.sr = rate ∧ t.history = History.zero s.params.sectionForm) ∧
    (∃ t, exec (.prepare 0#32) s = .next t ∧ t.status = some .invalidParameter ∧ t.mode = s.mode) ∧
    (∀ ty f q g, s.mode ≠ .unprepared → (derive s.params (Config.nanBits s.draws) ty s.sr f q g).isSome = true →
      ∃ t, exec (setInstr ty f q g) s = .next t ∧ t.mode = .configured) ∧
    (∀ ty f q g, s.mode ≠ .unprepared → derive s.params (Config.nanBits s.draws) ty s.sr f q g = none →
      ∃ t, exec (setInstr ty f q g) s = .next t ∧ t.status = some .invalidParameter ∧ t.mode = s.mode) ∧
    (∀ ty f q g, s.mode = .unprepared →
      ∃ t, exec (setInstr ty f q g) s = .next t ∧ t.status = some .notPrepared ∧ t.mode = s.mode) ∧
    (∃ t, exec .reset s = .next t ∧ t.mode = s.mode) ∧
    (∀ a b t, exec (.process a b) s = .next t → t.mode = s.mode) ∧
    (∀ rest, s.pending = .rst :: rest → ∃ t, step s = .next t ∧ t.mode = .unprepared)

/-! ### Errors (60_exceptions.md) -/

/-- R151: a command that answers a status other than `OK` leaves everything but the response as it was. -/
def Obligations.FailingCommandsChangeNothing : Prop :=
  ∀ (i : Instr) (s t : State), exec i s = .next t → t.status ≠ some .ok →
    ∃ e, t = { s with response := some ⟨e, []⟩ }

/-- R141: `NotPrepared` is raised by SET and by PROCESS when `prepared = 0`, whatever their operands, and by nothing else. -/
def Obligations.NotPreparedIsRaisedBySetAndProcess : Prop :=
  ∀ s : State,
    (s.prepared = false →
      (∀ ty f q g, exec (setInstr ty f q g) s = .next { s with response := some ⟨.notPrepared, []⟩ }) ∧
      (∀ a b, exec (.process a b) s = .next { s with response := some ⟨.notPrepared, []⟩ })) ∧
    (∀ i t, exec i s = .next t → t.status = some .notPrepared →
      s.prepared = false ∧ i ≠ .reset ∧ ∀ rate, i ≠ .prepare rate)

/-- R142: `NotConfigured` is raised only by PROCESS, when `prepared = 1` and `configured = 0`. A SET that failed does not
count. -/
def Obligations.NotConfiguredIsRaisedByProcessOnly : Prop :=
  ∀ s : State,
    (s.prepared = true → s.configured = false →
      ∀ a b, exec (.process a b) s = .next { s with response := some ⟨.notConfigured, []⟩ }) ∧
    (∀ i t, exec i s = .next t → t.status = some .notConfigured →
      (∃ a b, i = .process a b) ∧ s.prepared = true ∧ s.configured = false) ∧
    (∀ ty f q g t, exec (setInstr ty f q g) s = .next t → t.status ≠ some .ok → t.configured = s.configured)

/-- R144: `LengthMismatch` is raised only by PROCESS, when both flags are 1 and the lengths differ, whichever is larger. -/
def Obligations.LengthMismatchIsRaisedByProcessOnly : Prop :=
  ∀ s : State,
    (s.prepared = true → s.configured = true → ∀ a b : Len, a ≠ b →
      exec (.process a b) s = .next { s with response := some ⟨.lengthMismatch, []⟩ }) ∧
    (∀ i t, exec i s = .next t → t.status = some .lengthMismatch →
      (∃ a b, i = .process a b ∧ a ≠ b) ∧ s.prepared = true ∧ s.configured = true)

/-! ### PREPARE and RESET (41_configuration_commands.md) -/

/-- PREPARE with a positive rate completes in every mode (R105, R106): it stores the rate, zeroes the history (to `+0`, D16), sets
`prepared`, clears `configured` when `PREPARE_CLEARS_CONFIG` (D14), and leaves the coefficients and everything else alone. With
rate 0 it fails with `InvalidParameter` (D29) and writes nothing. -/
def Obligations.PrepareStoresTheRateAndZeroesTheHistory : Prop :=
  ∀ (s : State) (rate : Rate),
    (rate ≠ 0#32 → exec (.prepare rate) s = .next { s with
      sr := rate
      history := History.zero s.params.sectionForm
      prepared := true
      configured := if s.params.prepareClearsConfig then false else s.configured
      response := some ⟨.ok, []⟩ }) ∧
    (rate = 0#32 → exec (.prepare rate) s = .next { s with response := some ⟨.invalidParameter, []⟩ })

/-- RESET completes in every mode (R117, D15): it zeroes the history (D16), answers `OK` and changes nothing else; a second RESET
changes nothing. -/
def Obligations.ResetCommandZeroesTheHistoryOnly : Prop :=
  ∀ s : State, ∃ t,
    t = { s with history := History.zero s.params.sectionForm, response := some ⟨.ok, []⟩ } ∧
      exec .reset s = .next t ∧ exec .reset t = .next t

/-! ### SET (40_coefficient_engine.md, 41_configuration_commands.md) -/

/-- SET.LOWPASS (R108 by R107, with the formulas of R86 in the evaluation order that 92_eei_decisions.md D10 decides, and R80, R82,
R94): on accepted operands it completes, replaces the five coefficients by the quotients, sets `configured`, answers `OK` and
leaves every other register, flag and buffer alone. The draws `d` decide NaN bit patterns only. -/
def Obligations.SetLowPassStoresItsQuotients : Prop :=
  ∀ (s : State) (freq q gain : FWord), s.prepared = true → Accepted s.params.precision s.sr freq q gain →
    ∃ d : Draws,
      let p := s.params.precision
      let w0 := fdiv p (d 2) (fmul p (d 1) (fmul p (d 0) (cvt p 2) (Config.piWord p)) freq) (cvt p s.sr.toNat)
      let sn := fsin p w0
      let cs := fcos p w0
      let alpha := fdiv p (d 4) sn (fmul p (d 3) (cvt p 2) q)
      let omc := fsub p (d 9) (cvt p 1) cs
      let b0r := fdiv p (d 10) omc (cvt p 2)
      let b1r := omc
      let b2r := b0r
      let a0r := fadd p (d 6) (cvt p 1) alpha
      let a1r := fmul p (d 7) (fneg p (cvt p 2)) cs
      let a2r := fsub p (d 8) (cvt p 1) alpha
      exec (.setLowPass freq q gain) s = .next { s with
        coeffs := ⟨fdiv p (d 40) b0r a0r, fdiv p (d 41) b1r a0r, fdiv p (d 42) b2r a0r, fdiv p (d 43) a1r a0r,
          fdiv p (d 44) a2r a0r⟩
        configured := true
        response := some ⟨.ok, []⟩
        draws := s.draws + 1 }

/-- SET.HIGHPASS (R109 by R107, with the formulas of R87 in the evaluation order that 92_eei_decisions.md D10 decides, and R80, R82,
R94): on accepted operands it completes, replaces the five coefficients by the quotients, sets `configured`, answers `OK` and
leaves every other register, flag and buffer alone. The draws `d` decide NaN bit patterns only. -/
def Obligations.SetHighPassStoresItsQuotients : Prop :=
  ∀ (s : State) (freq q gain : FWord), s.prepared = true → Accepted s.params.precision s.sr freq q gain →
    ∃ d : Draws,
      let p := s.params.precision
      let w0 := fdiv p (d 2) (fmul p (d 1) (fmul p (d 0) (cvt p 2) (Config.piWord p)) freq) (cvt p s.sr.toNat)
      let sn := fsin p w0
      let cs := fcos p w0
      let alpha := fdiv p (d 4) sn (fmul p (d 3) (cvt p 2) q)
      let opc := fadd p (d 9) (cvt p 1) cs
      let b0r := fdiv p (d 10) opc (cvt p 2)
      let b1r := fneg p opc
      let b2r := b0r
      let a0r := fadd p (d 6) (cvt p 1) alpha
      let a1r := fmul p (d 7) (fneg p (cvt p 2)) cs
      let a2r := fsub p (d 8) (cvt p 1) alpha
      exec (.setHighPass freq q gain) s = .next { s with
        coeffs := ⟨fdiv p (d 40) b0r a0r, fdiv p (d 41) b1r a0r, fdiv p (d 42) b2r a0r, fdiv p (d 43) a1r a0r,
          fdiv p (d 44) a2r a0r⟩
        configured := true
        response := some ⟨.ok, []⟩
        draws := s.draws + 1 }

/-- SET.BANDPASS (R110 by R107, with the formulas of R88 in the evaluation order that 92_eei_decisions.md D10 decides, and R80, R82,
R94): on accepted operands it completes, replaces the five coefficients by the quotients, sets `configured`, answers `OK` and
leaves every other register, flag and buffer alone. The draws `d` decide NaN bit patterns only. `BANDPASS_FORM` is the instance's parameter, left open (D12). -/
def Obligations.SetBandPassStoresItsQuotients : Prop :=
  ∀ (s : State) (freq q gain : FWord), s.prepared = true → Accepted s.params.precision s.sr freq q gain →
    ∃ d : Draws,
      let p := s.params.precision
      let w0 := fdiv p (d 2) (fmul p (d 1) (fmul p (d 0) (cvt p 2) (Config.piWord p)) freq) (cvt p s.sr.toNat)
      let sn := fsin p w0
      let cs := fcos p w0
      let alpha := fdiv p (d 4) sn (fmul p (d 3) (cvt p 2) q)
      let b0r := if s.params.bandpassForm = .peak0db then alpha else fdiv p (d 9) sn (cvt p 2)
      let b1r := 0#64
      let b2r := fneg p b0r
      let a0r := fadd p (d 6) (cvt p 1) alpha
      let a1r := fmul p (d 7) (fneg p (cvt p 2)) cs
      let a2r := fsub p (d 8) (cvt p 1) alpha
      exec (.setBandPass freq q gain) s = .next { s with
        coeffs := ⟨fdiv p (d 40) b0r a0r, fdiv p (d 41) b1r a0r, fdiv p (d 42) b2r a0r, fdiv p (d 43) a1r a0r,
          fdiv p (d 44) a2r a0r⟩
        configured := true
        response := some ⟨.ok, []⟩
        draws := s.draws + 1 }

/-- SET.NOTCH (R111 by R107, with the formulas of R89 in the evaluation order that 92_eei_decisions.md D10 decides, and R80, R82,
R94): on accepted operands it completes, replaces the five coefficients by the quotients, sets `configured`, answers `OK` and
leaves every other register, flag and buffer alone. The draws `d` decide NaN bit patterns only. -/
def Obligations.SetNotchStoresItsQuotients : Prop :=
  ∀ (s : State) (freq q gain : FWord), s.prepared = true → Accepted s.params.precision s.sr freq q gain →
    ∃ d : Draws,
      let p := s.params.precision
      let w0 := fdiv p (d 2) (fmul p (d 1) (fmul p (d 0) (cvt p 2) (Config.piWord p)) freq) (cvt p s.sr.toNat)
      let sn := fsin p w0
      let cs := fcos p w0
      let alpha := fdiv p (d 4) sn (fmul p (d 3) (cvt p 2) q)
      let b0r := cvt p 1
      let b1r := fmul p (d 7) (fneg p (cvt p 2)) cs
      let b2r := cvt p 1
      let a0r := fadd p (d 6) (cvt p 1) alpha
      let a1r := fmul p (d 7) (fneg p (cvt p 2)) cs
      let a2r := fsub p (d 8) (cvt p 1) alpha
      exec (.setNotch freq q gain) s = .next { s with
        coeffs := ⟨fdiv p (d 40) b0r a0r, fdiv p (d 41) b1r a0r, fdiv p (d 42) b2r a0r, fdiv p (d 43) a1r a0r,
          fdiv p (d 44) a2r a0r⟩
        configured := true
        response := some ⟨.ok, []⟩
        draws := s.draws + 1 }

/-- SET.PEAK (R112 by R107, with the formulas of R90 in the evaluation order that 92_eei_decisions.md D10 decides, and R80, R82,
R94): on accepted operands it completes, replaces the five coefficients by the quotients, sets `configured`, answers `OK` and
leaves every other register, flag and buffer alone. The draws `d` decide NaN bit patterns only. -/
def Obligations.SetPeakStoresItsQuotients : Prop :=
  ∀ (s : State) (freq q gain : FWord), s.prepared = true → Accepted s.params.precision s.sr freq q gain →
    ∃ d : Draws,
      let p := s.params.precision
      let w0 := fdiv p (d 2) (fmul p (d 1) (fmul p (d 0) (cvt p 2) (Config.piWord p)) freq) (cvt p s.sr.toNat)
      let sn := fsin p w0
      let cs := fcos p w0
      let alpha := fdiv p (d 4) sn (fmul p (d 3) (cvt p 2) q)
      let a := fpow p (cvt p 10) (fdiv p (d 5) gain (cvt p 40))
      let aA := fmul p (d 9) alpha a
      let ad := fdiv p (d 10) alpha a
      let b0r := fadd p (d 12) (cvt p 1) aA
      let b1r := fmul p (d 11) (fneg p (cvt p 2)) cs
      let b2r := fsub p (d 13) (cvt p 1) aA
      let a0r := fadd p (d 14) (cvt p 1) ad
      let a1r := b1r
      let a2r := fsub p (d 15) (cvt p 1) ad
      exec (.setPeak freq q gain) s = .next { s with
        coeffs := ⟨fdiv p (d 40) b0r a0r, fdiv p (d 41) b1r a0r, fdiv p (d 42) b2r a0r, fdiv p (d 43) a1r a0r,
          fdiv p (d 44) a2r a0r⟩
        configured := true
        response := some ⟨.ok, []⟩
        draws := s.draws + 1 }

/-- SET.LOWSHELF (R113 by R107, with the formulas of R91 in the evaluation order that 92_eei_decisions.md D10 decides, and R80, R82,
R94): on accepted operands it completes, replaces the five coefficients by the quotients, sets `configured`, answers `OK` and
leaves every other register, flag and buffer alone. The draws `d` decide NaN bit patterns only. -/
def Obligations.SetLowShelfStoresItsQuotients : Prop :=
  ∀ (s : State) (freq q gain : FWord), s.prepared = true → Accepted s.params.precision s.sr freq q gain →
    ∃ d : Draws,
      let p := s.params.precision
      let w0 := fdiv p (d 2) (fmul p (d 1) (fmul p (d 0) (cvt p 2) (Config.piWord p)) freq) (cvt p s.sr.toNat)
      let sn := fsin p w0
      let cs := fcos p w0
      let alpha := fdiv p (d 4) sn (fmul p (d 3) (cvt p 2) q)
      let a := fpow p (cvt p 10) (fdiv p (d 5) gain (cvt p 40))
      let rA := fsqrt p (d 9) a
      let ap1 := fadd p (d 10) a (cvt p 1)
      let am1 := fsub p (d 11) a (cvt p 1)
      let ap1c := fmul p (d 12) ap1 cs
      let am1c := fmul p (d 13) am1 cs
      let k := fmul p (d 15) (fmul p (d 14) (cvt p 2) rA) alpha
      let u := fsub p (d 16) ap1 am1c
      let v := fadd p (d 17) ap1 am1c
      let b0r := fmul p (d 19) a (fadd p (d 18) u k)
      let b1r := fmul p (d 22) (fmul p (d 20) (cvt p 2) a) (fsub p (d 21) am1 ap1c)
      let b2r := fmul p (d 24) a (fsub p (d 23) u k)
      let a0r := fadd p (d 25) v k
      let a1r := fmul p (d 27) (fneg p (cvt p 2)) (fadd p (d 26) am1 ap1c)
      let a2r := fsub p (d 28) v k
      exec (.setLowShelf freq q gain) s = .next { s with
        coeffs := ⟨fdiv p (d 40) b0r a0r, fdiv p (d 41) b1r a0r, fdiv p (d 42) b2r a0r, fdiv p (d 43) a1r a0r,
          fdiv p (d 44) a2r a0r⟩
        configured := true
        response := some ⟨.ok, []⟩
        draws := s.draws + 1 }

/-- SET.HIGHSHELF (R114 by R107, with the formulas of R92 in the evaluation order that 92_eei_decisions.md D10 decides, and R80, R82,
R94): on accepted operands it completes, replaces the five coefficients by the quotients, sets `configured`, answers `OK` and
leaves every other register, flag and buffer alone. The draws `d` decide NaN bit patterns only. -/
def Obligations.SetHighShelfStoresItsQuotients : Prop :=
  ∀ (s : State) (freq q gain : FWord), s.prepared = true → Accepted s.params.precision s.sr freq q gain →
    ∃ d : Draws,
      let p := s.params.precision
      let w0 := fdiv p (d 2) (fmul p (d 1) (fmul p (d 0) (cvt p 2) (Config.piWord p)) freq) (cvt p s.sr.toNat)
      let sn := fsin p w0
      let cs := fcos p w0
      let alpha := fdiv p (d 4) sn (fmul p (d 3) (cvt p 2) q)
      let a := fpow p (cvt p 10) (fdiv p (d 5) gain (cvt p 40))
      let rA := fsqrt p (d 9) a
      let ap1 := fadd p (d 10) a (cvt p 1)
      let am1 := fsub p (d 11) a (cvt p 1)
      let ap1c := fmul p (d 12) ap1 cs
      let am1c := fmul p (d 13) am1 cs
      let k := fmul p (d 15) (fmul p (d 14) (cvt p 2) rA) alpha
      let u := fadd p (d 16) ap1 am1c
      let v := fsub p (d 17) ap1 am1c
      let b0r := fmul p (d 19) a (fadd p (d 18) u k)
      let b1r := fmul p (d 22) (fmul p (d 20) (fneg p (cvt p 2)) a) (fadd p (d 21) am1 ap1c)
      let b2r := fmul p (d 24) a (fsub p (d 23) u k)
      let a0r := fadd p (d 25) v k
      let a1r := fmul p (d 27) (cvt p 2) (fsub p (d 26) am1 ap1c)
      let a2r := fsub p (d 28) v k
      exec (.setHighShelf freq q gain) s = .next { s with
        coeffs := ⟨fdiv p (d 40) b0r a0r, fdiv p (d 41) b1r a0r, fdiv p (d 42) b2r a0r, fdiv p (d 43) a1r a0r,
          fdiv p (d 44) a2r a0r⟩
        configured := true
        response := some ⟨.ok, []⟩
        draws := s.draws + 1 }

/-- SET.ALLPASS (R115 by R107, with the formulas of R93 in the evaluation order that 92_eei_decisions.md D10 decides, and R80, R82,
R94): on accepted operands it completes, replaces the five coefficients by the quotients, sets `configured`, answers `OK` and
leaves every other register, flag and buffer alone. The draws `d` decide NaN bit patterns only. -/
def Obligations.SetAllPassStoresItsQuotients : Prop :=
  ∀ (s : State) (freq q gain : FWord), s.prepared = true → Accepted s.params.precision s.sr freq q gain →
    ∃ d : Draws,
      let p := s.params.precision
      let w0 := fdiv p (d 2) (fmul p (d 1) (fmul p (d 0) (cvt p 2) (Config.piWord p)) freq) (cvt p s.sr.toNat)
      let sn := fsin p w0
      let cs := fcos p w0
      let alpha := fdiv p (d 4) sn (fmul p (d 3) (cvt p 2) q)
      let b0r := fsub p (d 8) (cvt p 1) alpha
      let b1r := fmul p (d 7) (fneg p (cvt p 2)) cs
      let b2r := fadd p (d 6) (cvt p 1) alpha
      let a0r := fadd p (d 6) (cvt p 1) alpha
      let a1r := fmul p (d 7) (fneg p (cvt p 2)) cs
      let a2r := fsub p (d 8) (cvt p 1) alpha
      exec (.setAllPass freq q gain) s = .next { s with
        coeffs := ⟨fdiv p (d 40) b0r a0r, fdiv p (d 41) b1r a0r, fdiv p (d 42) b2r a0r, fdiv p (d 43) a1r a0r,
          fdiv p (d 44) a2r a0r⟩
        configured := true
        response := some ⟨.ok, []⟩
        draws := s.draws + 1 }

/-- SET succeeds in a prepared mode exactly on the operands that 40_coefficient_engine.md R76 to R78 accept, compared as real
numbers (R18, R77, the exact comparison of D24), whatever the type and however large or small the results (R79, R96, D30). On all
others it answers `InvalidParameter` and changes nothing (R116). -/
def Obligations.SetSucceedsExactlyOnAcceptedOperands : Prop :=
  ∀ (s : State) (ty : FilterType) (f q g : FWord), s.prepared = true →
    (Accepted s.params.precision s.sr f q g →
      ∃ t, exec (setInstr ty f q g) s = .next t ∧ t.status = some .ok ∧ t.configured = true) ∧
    (¬ Accepted s.params.precision s.sr f q g →
      exec (setInstr ty f q g) s = .next { s with response := some ⟨.invalidParameter, []⟩ })

/-- R76: with a `freq`, `q` or `gain` that is not finite `derive` fails, for every type and rate, and a SET in a prepared mode
answers `InvalidParameter`; the gain is used in no formula of the five types that ignore it. -/
def Obligations.NonFiniteOperandsAreRefused : Prop :=
  ∀ (s : State) (ty : FilterType) (f q g : FWord),
    (s.params.precision.finite f = false ∨ s.params.precision.finite q = false ∨ s.params.precision.finite g = false →
      (∀ d sr, derive s.params d ty sr f q g = none) ∧
      (s.prepared = true →
        exec (setInstr ty f q g) s = .next { s with response := some ⟨.invalidParameter, []⟩ })) ∧
    (∀ g', s.params.precision.finite g = true → s.params.precision.finite g' = true →
      ty ≠ .peak → ty ≠ .lowShelf → ty ≠ .highShelf →
        (∀ d sr, derive s.params d ty sr f q g = derive s.params d ty sr f q g') ∧
        exec (setInstr ty f q g) s = exec (setInstr ty f q g') s)

/-- R116: a SET that fails leaves the five coefficients and `configured` as they were, and a PROCESS that follows behaves exactly
as if the failing SET had not been issued. -/
def Obligations.FailingSetLeavesNoTrace : Prop :=
  ∀ (s t : State) (ty : FilterType) (f q g : FWord), exec (setInstr ty f q g) s = .next t → t.status ≠ some .ok →
    t.coeffs = s.coeffs ∧ t.configured = s.configured ∧ ∀ a b, exec (.process a b) t = exec (.process a b) s

/-- R119: SET never writes the history, on success or on failure (nor `sr`, `prepared` or a buffer), and under `DF1` the first
output after it, in a burst of any length, is the recurrence with the new coefficients on the old `x1 x2 y1 y2`. -/
def Obligations.SetKeepsTheHistory : Prop :=
  ∀ (s t : State) (ty : FilterType) (f q g : FWord), exec (setInstr ty f q g) s = .next t →
    t.history = s.history ∧ t.sr = s.sr ∧ t.prepared = s.prepared ∧ t.params = s.params ∧ t.pending = s.pending ∧
    t.inBuf = s.inBuf ∧ t.outBuf = s.outBuf ∧ t.placement = s.placement ∧
    (∀ x1 x2 y1 y2 x rest a, s.history = .df1 x1 x2 y1 y2 → t.status = some .ok → s.inBuf = x :: rest →
      s.placement ≠ .partialOverlap → a ≠ 0#32 →
        ∃ u d ys, exec (.process a a) t = .next u ∧
          u.response = some ⟨.ok, recur s.params.precision d t.coeffs (s.params.precision.cut x) x1 x2 y1 y2 :: ys⟩)

/-- R95: equal operands give the same coefficients at every call, "in every mode of the block and whatever was derived before",
the bit patterns of NaNs apart: the draws change nothing else. And the same SET issued twice leaves the same coefficients both
times. -/
def Obligations.DeriveIsAFunctionOfItsOperands : Prop :=
  ∀ (c : Params) (d d' : Draws) (ty : FilterType) (sr : Rate) (f q g : FWord),
    (derive c d ty sr f q g = none ↔ derive c d' ty sr f q g = none) ∧
    (∀ r r', derive c d ty sr f q g = some r → derive c d' ty sr f q g = some r' → r.same c.precision r') ∧
    (∀ s t : State, exec (setInstr ty f q g) s = .next t → t.status = some .ok →
      ∃ u, exec (setInstr ty f q g) t = .next u ∧ u.status = some .ok ∧ t.coeffs.same s.params.precision u.coeffs)

/-- Two successful SETs with equal operands and the same `sr` leave the same coefficients, whatever happened between them (R118,
inferred from R95), the bit patterns of NaNs apart. -/
def Obligations.SetIsIdempotent : Prop :=
  ∀ (s s' t t' : State) (ty : FilterType) (f q g : FWord), s'.params = s.params → s'.sr = s.sr →
    exec (setInstr ty f q g) s = .next t → exec (setInstr ty f q g) s' = .next t' →
    t.status = some .ok → t'.status = some .ok → t.coeffs.same s.params.precision t'.coeffs

/-- The relations of R97 between the coefficients of one successful SET, which the spec infers from R85 to R94: equal words, the
bit patterns of NaNs apart. And the five types that ignore gain share `a1` and `a2`. -/
def Obligations.CoefficientsAreRelatedByType : Prop :=
  (∀ (s t : State) (f q g : FWord),
    (exec (.setLowPass f q g) s = .next t → t.status = some .ok → s.params.precision.same t.coeffs.b2 t.coeffs.b0) ∧
    (exec (.setHighPass f q g) s = .next t → t.status = some .ok → s.params.precision.same t.coeffs.b2 t.coeffs.b0) ∧
    (exec (.setBandPass f q g) s = .next t → t.status = some .ok →
      s.params.precision.same t.coeffs.b2 (fneg s.params.precision t.coeffs.b0)) ∧
    (exec (.setNotch f q g) s = .next t → t.status = some .ok →
      s.params.precision.same t.coeffs.b1 t.coeffs.a1 ∧ s.params.precision.same t.coeffs.b2 t.coeffs.b0) ∧
    (exec (.setPeak f q g) s = .next t → t.status = some .ok → s.params.precision.same t.coeffs.b1 t.coeffs.a1) ∧
    (exec (.setAllPass f q g) s = .next t → t.status = some .ok →
      s.params.precision.same t.coeffs.b0 t.coeffs.a2 ∧ s.params.precision.same t.coeffs.b1 t.coeffs.a1)) ∧
  (∀ (c : Params) (d d' : Draws) (ty ty' : FilterType) (sr : Rate) (f q g g' : FWord) (r r' : Coeffs),
    ty ≠ .peak → ty ≠ .lowShelf → ty ≠ .highShelf → ty' ≠ .peak → ty' ≠ .lowShelf → ty' ≠ .highShelf →
    derive c d ty sr f q g = some r → derive c d' ty' sr f q g' = some r' →
      c.precision.same r.a1 r'.a1 ∧ c.precision.same r.a2 r'.a2)

/-- Peak with the amplitude 1, the amplitude of `gain = 0` (R90, R135): when `alpha` is finite and `a0r` is finite and not a zero,
the result is `b0 = 1` exactly, `b1 = a1` and `b2 = a2`, the identity transfer function. (That `fpow(10, 0)` is 1 is assumed of
no model, R83.) -/
def Obligations.PeakAtUnitAmplitudeIsTheIdentity : Prop :=
  ∀ (p : Precision) (d : Draws) (cs alpha : FWord), p.fits alpha = true → p.finite alpha = true →
    p.finite (fadd p 0#64 (cvt p 1) alpha) = true → p.isZero (fadd p 0#64 (cvt p 1) alpha) = false →
      (normalise p d (rawPeak p d (cvt p 1) cs alpha)).b0 = cvt p 1 ∧
      p.same (normalise p d (rawPeak p d (cvt p 1) cs alpha)).b1 (normalise p d (rawPeak p d (cvt p 1) cs alpha)).a1 ∧
      p.same (normalise p d (rawPeak p d (cvt p 1) cs alpha)).b2 (normalise p d (rawPeak p d (cvt p 1) cs alpha)).a2

/-! ### PROCESS and the section (42_process_section.md) -/

/-- PROCESS (R121): the three tests in their order (60_exceptions.md R148, D13), and then the section over the input samples, in
index order. It completes whenever the tests pass and the buffers do not partly overlap, and for an empty burst however they lie
(R126): it leaves the section's history, the
outputs in the first elements of `OUT` (and of `IN` where both are one storage, 20_memory.md R43), the outputs in the response,
and everything else as it was. -/
def Obligations.ProcessFiltersItsInput : Prop :=
  ∀ (a b : Len) (s : State),
    (s.prepared = false → exec (.process a b) s = .next { s with response := some ⟨.notPrepared, []⟩ }) ∧
    (s.prepared = true → s.configured = false →
      exec (.process a b) s = .next { s with response := some ⟨.notConfigured, []⟩ }) ∧
    (s.prepared = true → s.configured = true → a ≠ b →
      exec (.process a b) s = .next { s with response := some ⟨.lengthMismatch, []⟩ }) ∧
    (s.prepared = true → s.configured = true → s.placement ≠ .partialOverlap ∨ a = 0#32 →
      let out := filterList s.params.precision (fun n => Config.nanBits (s.draws + n)) s.coeffs s.history 0
        (s.input a.toNat)
      exec (.process a a) s = .next { s with
        history := out.1
        outBuf := out.2 ++ s.outBuf.drop a.toNat
        inBuf := if s.placement = .same then out.2 ++ s.inBuf.drop a.toNat else s.inBuf
        response := some ⟨.ok, out.2⟩
        draws := s.draws + a.toNat })

/-- The difference equation of R120 over a whole burst, under `DF1`: with the samples of the stream in `X` and the outputs in `Y`,
each headed by the two that the history held before, every output is DOC's sum of five products, left to right, each operation
rounded once (R124, D9), and the history left is the last two of each (R22, R122). The draws decide NaN bit patterns only. -/
def Obligations.BurstSatisfiesTheDifferenceEquation : Prop :=
  ∀ (s : State) (a : Len) (x1 x2 y1 y2 : FWord),
    s.prepared = true → s.configured = true → s.placement ≠ .partialOverlap → s.history = .df1 x1 x2 y1 y2 →
    ∃ (t : State) (ys : List FWord),
      let p := s.params.precision
      let X := fun k => (x2 :: x1 :: s.input a.toNat).getD k 0#64
      let Y := fun k => (y2 :: y1 :: ys).getD k 0#64
      exec (.process a a) s = .next t ∧ t.response = some ⟨.ok, ys⟩ ∧ ys.length = a.toNat ∧
      (∀ n, n < a.toNat → ∃ d : Draws,
        Y (n + 2) =
          fsub p (d 8)
            (fsub p (d 7)
              (fadd p (d 6)
                (fadd p (d 5) (fmul p (d 0) s.coeffs.b0 (X (n + 2))) (fmul p (d 1) s.coeffs.b1 (X (n + 1))))
                (fmul p (d 2) s.coeffs.b2 (X n)))
              (fmul p (d 3) s.coeffs.a1 (Y (n + 1))))
            (fmul p (d 4) s.coeffs.a2 (Y n))) ∧
      t.history = .df1 (X (a.toNat + 1)) (X a.toNat) (Y (a.toNat + 1)) (Y a.toNat)

/-- R122: one step under `DF1` yields `recur` of the old registers and shifts the history, all four writes from the values before
the step. -/
def Obligations.DirectFormStepShiftsTheHistory : Prop :=
  ∀ (s : State) (x x1 x2 y1 y2 : FWord) (rest : List FWord),
    s.prepared = true → s.configured = true → s.placement ≠ .partialOverlap → s.history = .df1 x1 x2 y1 y2 →
    s.inBuf = x :: rest → s.params.precision.fits x = true →
    ∃ t d, exec (.process 1#32 1#32) s = .next t ∧
      (let y := recur s.params.precision d s.coeffs x x1 x2 y1 y2
       t.history = .df1 x x1 y y1 ∧ t.response = some ⟨.ok, [y]⟩)

/-- R123: what is written to `Out(n)` is the `y` that is written to `y1`: after a burst that moved samples, `y1` is the last
output word, bit for bit, and the response's samples are the first words of `OUT`. -/
def Obligations.OutputWordIsTheHistoryWord : Prop :=
  ∀ (s t : State) (a : Len) (x1 x2 y1 y2 : FWord), s.history = .df1 x1 x2 y1 y2 → a ≠ 0#32 →
    exec (.process a a) s = .next t → t.status = some .ok →
    ∃ ys u1 u2 v1 v2, t.response = some ⟨.ok, ys⟩ ∧ t.history = .df1 u1 u2 v1 v2 ∧
      ys.getLast? = some v1 ∧ t.outBuf.take a.toNat = ys

/-- The transposed step (R129, D19, taken by the spec from general knowledge, G6): `y`, `s1` and `s2` as its evaluation order
says. -/
def Obligations.TransposedStepUpdatesThePartialSums : Prop :=
  ∀ (s : State) (x s1 s2 : FWord) (rest : List FWord),
    s.prepared = true → s.configured = true → s.placement ≠ .partialOverlap → s.history = .df2t s1 s2 →
    s.inBuf = x :: rest → s.params.precision.fits x = true →
    ∃ (t : State) (d : Draws),
      let p := s.params.precision
      let c := s.coeffs
      let y := fadd p (d 1) (fmul p (d 0) c.b0 x) s1
      exec (.process 1#32 1#32) s = .next t ∧ t.response = some ⟨.ok, [y]⟩ ∧
        t.history = .df2t (fadd p (d 5) (fsub p (d 4) (fmul p (d 2) c.b1 x) (fmul p (d 3) c.a1 y)) s2)
          (fsub p (d 8) (fmul p (d 6) c.b2 x) (fmul p (d 7) c.a2 y))

/-- A burst boundary is invisible (R125, inferred from R121 and R122): `u` and then `v` give the outputs and leave the state of
`u` followed by `v` in one burst, the bit patterns of NaNs apart, under both section forms. The second command may start at any
draw number `k`. -/
def Obligations.BurstsConcatenate : Prop :=
  ∀ (s t t' w : State) (m n l : Len) (u v : List FWord) (k : Nat),
    u.length = m.toNat → v.length = n.toNat → l.toNat = m.toNat + n.toNat →
    s.prepared = true → s.configured = true → s.placement = .separate →
    exec (.process m m) { s with inBuf := u } = .next t →
    exec (.process n n) { t with inBuf := v, draws := k } = .next t' →
    exec (.process l l) { s with inBuf := u ++ v } = .next w →
    ∃ ys zs os, t.response = some ⟨.ok, ys⟩ ∧ t'.response = some ⟨.ok, zs⟩ ∧ w.response = some ⟨.ok, os⟩ ∧
      List.Forall₂ s.params.precision.same (ys ++ zs) os ∧ t'.history.same s.params.precision w.history ∧
      t'.coeffs = w.coeffs ∧ t'.sr = w.sr ∧ t'.prepared = w.prepared ∧ t'.configured = w.configured

/-- R128: a PROCESS that raises any of its three errors has read no input sample (its answer is the same over every input
buffer), written no output sample and written no register. -/
def Obligations.FailingProcessIsWhole : Prop :=
  ∀ (a b : Len) (s : State), s.prepared = false ∨ s.configured = false ∨ a ≠ b →
    ∃ e, e ≠ .ok ∧ ∀ buf, exec (.process a b) { s with inBuf := buf } =
      .next { s with inBuf := buf, response := some ⟨e, []⟩ }

/-- NaNs stay (R127): an input sample that is a NaN makes its own output and every later one of the burst a NaN, under both
section forms, and a NaN in `y1` (`s1` under `DF2T`) makes every output a NaN and is still there afterwards. The status is `OK`
throughout. -/
def Obligations.NaNsTaintEveryLaterOutput : Prop :=
  ∀ (s : State) (a : Len), s.prepared = true → s.configured = true → s.placement ≠ .partialOverlap →
    ∃ (t : State) (ys : List FWord), exec (.process a a) s = .next t ∧ t.response = some ⟨.ok, ys⟩ ∧
      (∀ (k j : Nat) (x y : FWord), (s.input a.toNat)[k]? = some x → s.params.precision.isNaN x = true → k ≤ j → ys[j]? = some y →
        s.params.precision.isNaN y = true) ∧
      (∀ x1 x2 y1 y2, s.history = .df1 x1 x2 y1 y2 → s.params.precision.isNaN y1 = true →
        (∀ y ∈ ys, s.params.precision.isNaN y = true) ∧
          ∃ u1 u2 v1 v2, t.history = .df1 u1 u2 v1 v2 ∧ s.params.precision.isNaN v1 = true) ∧
      (∀ s1 s2, s.history = .df2t s1 s2 → s.params.precision.isNaN s1 = true →
        (∀ y ∈ ys, s.params.precision.isNaN y = true) ∧
          ∃ u1 u2, t.history = .df2t u1 u2 ∧ s.params.precision.isNaN u1 = true)

/-- Zero in, zero out (R131, inferred from R124; R130 for `DF2T`): with finite coefficients and a history of zeros of either sign,
a burst of zeros of either sign gives zeros and leaves zeros, at any length. -/
def Obligations.ZeroInputGivesZeroOutput : Prop :=
  ∀ (s : State) (a : Len), s.prepared = true → s.configured = true → s.placement ≠ .partialOverlap →
    s.coeffs.all s.params.precision.finite = true → s.history.all s.params.precision.isZero = true →
    (∀ x ∈ s.input a.toNat, s.params.precision.isZero x = true) →
    ∃ t ys, exec (.process a a) s = .next t ∧ t.response = some ⟨.ok, ys⟩ ∧ ys.length = a.toNat ∧
      (∀ y ∈ ys, s.params.precision.isZero y = true) ∧ t.history.all s.params.precision.isZero = true

/-- One buffer passed as both is harmless (20_memory.md R43, D20): the outputs and the history are those of separate buffers, and
the one storage holds the outputs. -/
def Obligations.SharedBufferGivesTheSameResult : Prop :=
  ∀ (s t : State) (a : Len), s.placement = .separate → exec (.process a a) s = .next t →
    ∃ u, exec (.process a a) { s with placement := .same, outBuf := s.inBuf } = .next u ∧
      u.response = t.response ∧ u.history = t.history ∧ u.outBuf = u.inBuf ∧
      (∀ ys, t.response = some ⟨.ok, ys⟩ → u.outBuf = ys ++ s.inBuf.drop a.toNat)

/-! ### Arithmetic (00_scope.md R11, R14) -/

/-- `fadd` and `fsub` of finite operands are the exact sum and difference rounded once (R11, with the rounding of D8), whatever
the draw. -/
def Obligations.AdditionRoundsTheExactSum : Prop :=
  ∀ (p : Precision) (n a b : FWord), p.finite a = true → p.finite b = true →
    p.RoundsTo ((p.real a : ℝ) + (p.real b : ℝ)) (fadd p n a b) ∧
    p.RoundsTo ((p.real a : ℝ) - (p.real b : ℝ)) (fsub p n a b)

/-- `fmul` and `fdiv` of finite operands (for `fdiv` a divisor that is no zero) are the exact product and quotient rounded once
(R11, D8), with the product sign. -/
def Obligations.MultiplicationAndDivisionRoundOnce : Prop :=
  ∀ (p : Precision) (n a b : FWord), p.finite a = true → p.finite b = true →
    p.RoundsTo ((p.real a : ℝ) * (p.real b : ℝ)) (fmul p n a b) ∧
    p.signBit (fmul p n a b) = (p.signBit a != p.signBit b) ∧
    (p.isZero b = false →
      p.RoundsTo ((p.real a : ℝ) / (p.real b : ℝ)) (fdiv p n a b) ∧
      p.signBit (fdiv p n a b) = (p.signBit a != p.signBit b))

/-- `fsqrt` of a finite operand that is not negative is the exact root rounded once, and `cvt` the whole number rounded once (R11,
R14, D8, D25). -/
def Obligations.SquareRootAndConversionRoundOnce : Prop :=
  (∀ (p : Precision) (n a : FWord), p.finite a = true → 0 ≤ p.real a →
    p.RoundsTo (Real.sqrt (p.real a : ℝ)) (fsqrt p n a)) ∧
  (∀ (p : Precision) (r : Rate), p.RoundsTo (r.toNat : ℝ) (cvt p r.toNat))

/-- The IEEE results for special operands that R11 lists: a NaN operand gives a NaN (R13), `inf - inf`, `0 * inf`, `0 / 0`,
`inf / inf` and the root of a negative number give NaNs, and a finite nonzero number over a zero gives an infinity of the
product sign. The bit pattern of a produced NaN is a draw among the NaNs of `F_P` (D18): a draw gives a NaN, and every NaN is the
NaN of some draw. -/
def Obligations.SpecialOperandsGiveTheirResults : Prop :=
  ∀ (p : Precision) (n a b : FWord),
    (p.isNaN a = true ∨ p.isNaN b = true →
      p.isNaN (fadd p n a b) = true ∧ p.isNaN (fsub p n a b) = true ∧ p.isNaN (fmul p n a b) = true ∧
        p.isNaN (fdiv p n a b) = true) ∧
    (p.isNaN a = true → p.isNaN (fsqrt p n a) = true) ∧
    (p.isInf a = true → p.isInf b = true → p.signBit a = p.signBit b → p.isNaN (fsub p n a b) = true) ∧
    (p.isZero a = true → p.isInf b = true → p.isNaN (fmul p n a b) = true ∧ p.isNaN (fmul p n b a) = true) ∧
    (p.isZero a = true → p.isZero b = true → p.isNaN (fdiv p n a b) = true) ∧
    (p.isInf a = true → p.isInf b = true → p.isNaN (fdiv p n a b) = true) ∧
    (p.signBit a = true → p.isZero a = false → p.isNaN (fsqrt p n a) = true) ∧
    (p.finite a = true → p.isZero a = false → p.isZero b = true →
      fdiv p n a b = p.infWord (p.signBit a != p.signBit b)) ∧
    (p.isNaN (p.nanWord n) = true ∧ p.fits (p.nanWord n) = true) ∧
    (p.fits a = true → p.isNaN a = true → ∃ draw, p.nanWord draw = a)

/-- Subnormal numbers are ordinary values (R10): every finite word that is no zero, subnormal or not, passes unchanged through
adding a zero, multiplying by 1, and dividing by 1: "nothing is flushed to zero on input or on output". -/
def Obligations.SubnormalsAreNotFlushed : Prop :=
  ∀ (p : Precision) (n a z : FWord), p.fits a = true → p.finite a = true → p.isZero a = false → p.isZero z = true →
    fadd p n a z = a ∧ fmul p n a (cvt p 1) = a ∧ fdiv p n a (cvt p 1) = a
end

