-- ==== Sys2Proof/Laws/State.lean ====
section
/-! SUPPORT. One lemma per field of each named update of State, true by rfl, so that no later proof unfolds an update. -/

namespace Sys2Proof.Machine

/-! ### `State.answer` -/

@[simp] theorem State.answer_params (s : State) (ys : List FWord) :
    (s.answer ys).params = s.params := rfl

@[simp] theorem State.answer_coeffs (s : State) (ys : List FWord) :
    (s.answer ys).coeffs = s.coeffs := rfl

@[simp] theorem State.answer_history (s : State) (ys : List FWord) :
    (s.answer ys).history = s.history := rfl

@[simp] theorem State.answer_sr (s : State) (ys : List FWord) :
    (s.answer ys).sr = s.sr := rfl

@[simp] theorem State.answer_prepared (s : State) (ys : List FWord) :
    (s.answer ys).prepared = s.prepared := rfl

@[simp] theorem State.answer_configured (s : State) (ys : List FWord) :
    (s.answer ys).configured = s.configured := rfl

@[simp] theorem State.answer_pending (s : State) (ys : List FWord) :
    (s.answer ys).pending = s.pending := rfl

@[simp] theorem State.answer_inBuf (s : State) (ys : List FWord) :
    (s.answer ys).inBuf = s.inBuf := rfl

@[simp] theorem State.answer_outBuf (s : State) (ys : List FWord) :
    (s.answer ys).outBuf = s.outBuf := rfl

@[simp] theorem State.answer_placement (s : State) (ys : List FWord) :
    (s.answer ys).placement = s.placement := rfl

@[simp] theorem State.answer_response (s : State) (ys : List FWord) :
    (s.answer ys).response = some ⟨.ok, ys⟩ := rfl

@[simp] theorem State.answer_draws (s : State) (ys : List FWord) :
    (s.answer ys).draws = s.draws := rfl

/-! ### `State.zeroHistory` -/

@[simp] theorem State.zeroHistory_params (s : State) :
    (s.zeroHistory).params = s.params := rfl

@[simp] theorem State.zeroHistory_coeffs (s : State) :
    (s.zeroHistory).coeffs = s.coeffs := rfl

@[simp] theorem State.zeroHistory_history (s : State) :
    (s.zeroHistory).history = History.zero s.params.sectionForm := rfl

@[simp] theorem State.zeroHistory_sr (s : State) :
    (s.zeroHistory).sr = s.sr := rfl

@[simp] theorem State.zeroHistory_prepared (s : State) :
    (s.zeroHistory).prepared = s.prepared := rfl

@[simp] theorem State.zeroHistory_configured (s : State) :
    (s.zeroHistory).configured = s.configured := rfl

@[simp] theorem State.zeroHistory_pending (s : State) :
    (s.zeroHistory).pending = s.pending := rfl

@[simp] theorem State.zeroHistory_inBuf (s : State) :
    (s.zeroHistory).inBuf = s.inBuf := rfl

@[simp] theorem State.zeroHistory_outBuf (s : State) :
    (s.zeroHistory).outBuf = s.outBuf := rfl

@[simp] theorem State.zeroHistory_placement (s : State) :
    (s.zeroHistory).placement = s.placement := rfl

@[simp] theorem State.zeroHistory_response (s : State) :
    (s.zeroHistory).response = s.response := rfl

@[simp] theorem State.zeroHistory_draws (s : State) :
    (s.zeroHistory).draws = s.draws := rfl

/-! ### `State.writeOut` -/

@[simp] theorem State.writeOut_params (s : State) (n : Nat) (v : FWord) :
    (s.writeOut n v).params = s.params := rfl

@[simp] theorem State.writeOut_coeffs (s : State) (n : Nat) (v : FWord) :
    (s.writeOut n v).coeffs = s.coeffs := rfl

@[simp] theorem State.writeOut_history (s : State) (n : Nat) (v : FWord) :
    (s.writeOut n v).history = s.history := rfl

@[simp] theorem State.writeOut_sr (s : State) (n : Nat) (v : FWord) :
    (s.writeOut n v).sr = s.sr := rfl

@[simp] theorem State.writeOut_prepared (s : State) (n : Nat) (v : FWord) :
    (s.writeOut n v).prepared = s.prepared := rfl

@[simp] theorem State.writeOut_configured (s : State) (n : Nat) (v : FWord) :
    (s.writeOut n v).configured = s.configured := rfl

@[simp] theorem State.writeOut_pending (s : State) (n : Nat) (v : FWord) :
    (s.writeOut n v).pending = s.pending := rfl

@[simp] theorem State.writeOut_outBuf (s : State) (n : Nat) (v : FWord) :
    (s.writeOut n v).outBuf = putSample s.outBuf n v := rfl

@[simp] theorem State.writeOut_placement (s : State) (n : Nat) (v : FWord) :
    (s.writeOut n v).placement = s.placement := rfl

@[simp] theorem State.writeOut_response (s : State) (n : Nat) (v : FWord) :
    (s.writeOut n v).response = s.response := rfl

@[simp] theorem State.writeOut_draws (s : State) (n : Nat) (v : FWord) :
    (s.writeOut n v).draws = s.draws := rfl

/-! ### `State.accept` -/

@[simp] theorem State.accept_params (s : State) (c : Command) (rest : List PortEvent) :
    (s.accept c rest).params = s.params := rfl

@[simp] theorem State.accept_coeffs (s : State) (c : Command) (rest : List PortEvent) :
    (s.accept c rest).coeffs = s.coeffs := rfl

@[simp] theorem State.accept_history (s : State) (c : Command) (rest : List PortEvent) :
    (s.accept c rest).history = s.history := rfl

@[simp] theorem State.accept_sr (s : State) (c : Command) (rest : List PortEvent) :
    (s.accept c rest).sr = s.sr := rfl

@[simp] theorem State.accept_prepared (s : State) (c : Command) (rest : List PortEvent) :
    (s.accept c rest).prepared = s.prepared := rfl

@[simp] theorem State.accept_configured (s : State) (c : Command) (rest : List PortEvent) :
    (s.accept c rest).configured = s.configured := rfl

@[simp] theorem State.accept_pending (s : State) (c : Command) (rest : List PortEvent) :
    (s.accept c rest).pending = rest := rfl

@[simp] theorem State.accept_inBuf (s : State) (c : Command) (rest : List PortEvent) :
    (s.accept c rest).inBuf = c.input := rfl

@[simp] theorem State.accept_outBuf (s : State) (c : Command) (rest : List PortEvent) :
    (s.accept c rest).outBuf = c.output := rfl

@[simp] theorem State.accept_placement (s : State) (c : Command) (rest : List PortEvent) :
    (s.accept c rest).placement = c.placement := rfl

@[simp] theorem State.accept_response (s : State) (c : Command) (rest : List PortEvent) :
    (s.accept c rest).response = s.response := rfl

@[simp] theorem State.accept_draws (s : State) (c : Command) (rest : List PortEvent) :
    (s.accept c rest).draws = s.draws := rfl

/-! ### `State.assertRst` -/

@[simp] theorem State.assertRst_params (s : State) (rest : List PortEvent) :
    (s.assertRst rest).params = s.params := rfl

@[simp] theorem State.assertRst_coeffs (s : State) (rest : List PortEvent) :
    (s.assertRst rest).coeffs = ⟨0#64, 0#64, 0#64, 0#64, 0#64⟩ := rfl

@[simp] theorem State.assertRst_history (s : State) (rest : List PortEvent) :
    (s.assertRst rest).history = History.zero s.params.sectionForm := rfl

@[simp] theorem State.assertRst_sr (s : State) (rest : List PortEvent) :
    (s.assertRst rest).sr = 0#32 := rfl

@[simp] theorem State.assertRst_prepared (s : State) (rest : List PortEvent) :
    (s.assertRst rest).prepared = false := rfl

@[simp] theorem State.assertRst_configured (s : State) (rest : List PortEvent) :
    (s.assertRst rest).configured = false := rfl

@[simp] theorem State.assertRst_pending (s : State) (rest : List PortEvent) :
    (s.assertRst rest).pending = rest := rfl

@[simp] theorem State.assertRst_inBuf (s : State) (rest : List PortEvent) :
    (s.assertRst rest).inBuf = s.inBuf := rfl

@[simp] theorem State.assertRst_outBuf (s : State) (rest : List PortEvent) :
    (s.assertRst rest).outBuf = s.outBuf := rfl

@[simp] theorem State.assertRst_placement (s : State) (rest : List PortEvent) :
    (s.assertRst rest).placement = s.placement := rfl

@[simp] theorem State.assertRst_response (s : State) (rest : List PortEvent) :
    (s.assertRst rest).response = none := rfl

@[simp] theorem State.assertRst_draws (s : State) (rest : List PortEvent) :
    (s.assertRst rest).draws = s.draws := rfl

/-! ### `State.sampleStep` -/

@[simp] theorem State.sampleStep_params (s : State) (n : Nat) :
    (s.sampleStep n).params = s.params := rfl

@[simp] theorem State.sampleStep_coeffs (s : State) (n : Nat) :
    (s.sampleStep n).coeffs = s.coeffs := rfl

@[simp] theorem State.sampleStep_history (s : State) (n : Nat) :
    (s.sampleStep n).history = 
      sectionNext s.params.precision (Config.nanBits s.draws) s.coeffs s.history (s.inSample n) (s.sampleOut n) := rfl

@[simp] theorem State.sampleStep_sr (s : State) (n : Nat) :
    (s.sampleStep n).sr = s.sr := rfl

@[simp] theorem State.sampleStep_prepared (s : State) (n : Nat) :
    (s.sampleStep n).prepared = s.prepared := rfl

@[simp] theorem State.sampleStep_configured (s : State) (n : Nat) :
    (s.sampleStep n).configured = s.configured := rfl

@[simp] theorem State.sampleStep_pending (s : State) (n : Nat) :
    (s.sampleStep n).pending = s.pending := rfl

@[simp] theorem State.sampleStep_outBuf (s : State) (n : Nat) :
    (s.sampleStep n).outBuf = putSample s.outBuf n (s.sampleOut n) := rfl

@[simp] theorem State.sampleStep_placement (s : State) (n : Nat) :
    (s.sampleStep n).placement = s.placement := rfl

@[simp] theorem State.sampleStep_response (s : State) (n : Nat) :
    (s.sampleStep n).response = s.response := rfl

@[simp] theorem State.sampleStep_draws (s : State) (n : Nat) :
    (s.sampleStep n).draws = s.draws + 1 := rfl

/-! ### `State.withFetchWord` -/

@[simp] theorem State.withFetchWord_params (s : State) (nbits w : Nat) :
    (s.withFetchWord nbits w).params = s.params := rfl

@[simp] theorem State.withFetchWord_coeffs (s : State) (nbits w : Nat) :
    (s.withFetchWord nbits w).coeffs = s.coeffs := rfl

@[simp] theorem State.withFetchWord_history (s : State) (nbits w : Nat) :
    (s.withFetchWord nbits w).history = s.history := rfl

@[simp] theorem State.withFetchWord_sr (s : State) (nbits w : Nat) :
    (s.withFetchWord nbits w).sr = s.sr := rfl

@[simp] theorem State.withFetchWord_prepared (s : State) (nbits w : Nat) :
    (s.withFetchWord nbits w).prepared = s.prepared := rfl

@[simp] theorem State.withFetchWord_configured (s : State) (nbits w : Nat) :
    (s.withFetchWord nbits w).configured = s.configured := rfl

@[simp] theorem State.withFetchWord_pending (s : State) (nbits w : Nat) :
    (s.withFetchWord nbits w).pending = 
      .command ⟨BitVec.ofNat 197 (w % 2 ^ nbits), [], [], .separate⟩ :: s.pending := rfl

@[simp] theorem State.withFetchWord_inBuf (s : State) (nbits w : Nat) :
    (s.withFetchWord nbits w).inBuf = s.inBuf := rfl

@[simp] theorem State.withFetchWord_outBuf (s : State) (nbits w : Nat) :
    (s.withFetchWord nbits w).outBuf = s.outBuf := rfl

@[simp] theorem State.withFetchWord_placement (s : State) (nbits w : Nat) :
    (s.withFetchWord nbits w).placement = s.placement := rfl

@[simp] theorem State.withFetchWord_response (s : State) (nbits w : Nat) :
    (s.withFetchWord nbits w).response = s.response := rfl

@[simp] theorem State.withFetchWord_draws (s : State) (nbits w : Nat) :
    (s.withFetchWord nbits w).draws = s.draws := rfl

/-! ### `State.resetWith` -/

@[simp] theorem State.resetWith_params (c : Params) :
    (State.resetWith c).params = c := rfl

@[simp] theorem State.resetWith_coeffs (c : Params) :
    (State.resetWith c).coeffs = ⟨0#64, 0#64, 0#64, 0#64, 0#64⟩ := rfl

@[simp] theorem State.resetWith_history (c : Params) :
    (State.resetWith c).history = History.zero c.sectionForm := rfl

@[simp] theorem State.resetWith_sr (c : Params) :
    (State.resetWith c).sr = 0#32 := rfl

@[simp] theorem State.resetWith_prepared (c : Params) :
    (State.resetWith c).prepared = false := rfl

@[simp] theorem State.resetWith_configured (c : Params) :
    (State.resetWith c).configured = false := rfl

@[simp] theorem State.resetWith_pending (c : Params) :
    (State.resetWith c).pending = [] := rfl

@[simp] theorem State.resetWith_inBuf (c : Params) :
    (State.resetWith c).inBuf = [] := rfl

@[simp] theorem State.resetWith_outBuf (c : Params) :
    (State.resetWith c).outBuf = [] := rfl

@[simp] theorem State.resetWith_placement (c : Params) :
    (State.resetWith c).placement = .separate := rfl

@[simp] theorem State.resetWith_response (c : Params) :
    (State.resetWith c).response = none := rfl

@[simp] theorem State.resetWith_draws (c : Params) :
    (State.resetWith c).draws = 0 := rfl

/-! ### The input buffer under a write -/

theorem State.writeOut_inBuf_separate (s : State) (n : Nat) (v : FWord) (h : s.placement = .separate) :
    (s.writeOut n v).inBuf = s.inBuf := by
  simp [State.writeOut, h]

theorem State.writeOut_inBuf_same (s : State) (n : Nat) (v : FWord) (h : s.placement = .same) :
    (s.writeOut n v).inBuf = putSample s.inBuf n v := by
  simp [State.writeOut, h]

theorem State.sampleStep_inBuf_separate (s : State) (n : Nat) (h : s.placement = .separate) :
    (s.sampleStep n).inBuf = s.inBuf :=
  State.writeOut_inBuf_separate _ _ _ h

theorem State.sampleStep_inBuf_same (s : State) (n : Nat) (h : s.placement = .same) :
    (s.sampleStep n).inBuf = putSample s.inBuf n (s.sampleOut n) :=
  State.writeOut_inBuf_same _ _ _ h

/-! ### Histories -/

@[simp] theorem History.zero_form (f : SectionForm) : (History.zero f).form = f := by cases f <;> rfl

@[simp] theorem sectionNext_form (p : Precision) (d : Draws) (c : Coeffs) (h : History) (x y : FWord) :
    (sectionNext p d c h x y).form = h.form := by
  cases h <;> rfl

end Sys2Proof.Machine
end

