-- ==== Sys2Proof/Laws/Rounding.lean ====
section
/-! SUPPORT. `roundMag` is correct rounding: its result is representable, nearest, even at a tie, and overflows where it should;
`isqrt` is the floor of the square root. -/

namespace Sys2Proof

theorem Precision.fracBits_pos (p : Precision) : 1 ≤ p.fracBits := by cases p <;> decide

/-- The significand of `roundMag` before the exponent is added. -/
theorem Precision.magValue_encode (p : Precision) (k m : Nat) (hm : m ≤ 2 * 2 ^ p.fracBits)
    (hk : k = 0 ∨ 2 ^ p.fracBits ≤ m) : p.magValue (k * 2 ^ p.fracBits + m) = m * 2 ^ k := by
  have hpos : 0 < 2 ^ p.fracBits := by positivity
  unfold Precision.magValue
  generalize 2 ^ p.fracBits = F at *
  have hdiv : (k * F + m) / F = k + m / F := by
    rw [Nat.add_comm, Nat.add_mul_div_right _ _ hpos, Nat.add_comm]
  have hmod : (k * F + m) % F = m % F := by
    rw [Nat.add_comm, Nat.add_mul_mod_self_right]
  simp only [hdiv, hmod]
  by_cases h1 : m < F
  · have hk0 : k = 0 := by omega
    subst hk0
    simp [Nat.div_eq_of_lt h1, Nat.mod_eq_of_lt h1]
  · by_cases h2 : m < 2 * F
    · have e : m / F = 1 := Nat.div_eq_of_lt_le (by omega) (by omega)
      have r : m % F = m - F := by
        have := Nat.div_add_mod m F
        rw [e] at this
        omega
      simp [e, r]
      omega
    · have hm2 : m = 2 * F := by omega
      subst hm2
      have e : 2 * F / F = 2 := Nat.mul_div_cancel _ hpos
      simp [e, pow_succ]
      ring

/-- Every representable magnitude is a multiple of `2 ^ k`, or lies below `2 ^ (fracBits + k)`. -/
theorem Precision.magValue_grid (p : Precision) (mag k : Nat) :
    2 ^ k ∣ p.magValue mag ∨ p.magValue mag < 2 ^ p.fracBits * 2 ^ k := by
  unfold Precision.magValue
  have hpos : 0 < 2 ^ p.fracBits := by positivity
  generalize 2 ^ p.fracBits = F at *
  have hf : mag % F < F := Nat.mod_lt _ hpos
  by_cases he : mag / F = 0
  · right
    simp only [he, if_true]
    exact lt_of_lt_of_le hf (Nat.le_mul_of_pos_right _ (by positivity))
  · simp only [he, if_false]
    by_cases hk : k ≤ mag / F - 1
    · left
      exact Dvd.dvd.mul_left (pow_dvd_pow 2 hk) _
    · right
      have h2 : 2 ^ (mag / F - 1) * 2 ≤ 2 ^ k := by
        rw [← pow_succ]
        exact Nat.pow_le_pow_right (by omega) (by omega)
      calc (F + mag % F) * 2 ^ (mag / F - 1) < (2 * F) * 2 ^ (mag / F - 1) :=
            Nat.mul_lt_mul_of_pos_right (by omega) (by positivity)
        _ = F * (2 ^ (mag / F - 1) * 2) := by ring
        _ ≤ F * 2 ^ k := Nat.mul_le_mul_left _ h2

/-- The exponent of the spacing that `roundMag` works with. -/
def Precision.spacing (p : Precision) (n d : Nat) : Nat := Nat.log2 (n / d) - p.fracBits

/-- The significand that `roundMag` rounds to. -/
def Precision.significand (p : Precision) (n d : Nat) : Nat :=
  let unit := d * 2 ^ p.spacing n d
  if decide (unit < 2 * (n % unit)) || (decide (2 * (n % unit) = unit) && decide (n / unit % 2 = 1))
  then n / unit + 1 else n / unit

theorem Precision.roundMag_eq (p : Precision) (n d : Nat) :
    p.roundMag n d = min (p.spacing n d * 2 ^ p.fracBits + p.significand n d) p.infMag := rfl

/-- The quotient below the rounding lies in the binade that `spacing` names. -/
theorem Precision.quotient_bounds (p : Precision) (n d : Nat) :
    n / (d * 2 ^ p.spacing n d) < 2 * 2 ^ p.fracBits ∧
      (p.spacing n d = 0 ∨ 2 ^ p.fracBits ≤ n / (d * 2 ^ p.spacing n d)) := by
  rw [← Nat.div_div_eq_div_mul]
  unfold Precision.spacing
  generalize n / d = q
  by_cases hq : q = 0
  · subst hq
    have : (Nat.log2 0) = 0 := by decide
    simp [this]
  · have h1 : q < 2 ^ (q.log2 + 1) := Nat.lt_log2_self
    have h2 : 2 ^ q.log2 ≤ q := Nat.log2_self_le hq
    by_cases hk : q.log2 ≤ p.fracBits
    · have hz : q.log2 - p.fracBits = 0 := by omega
      rw [hz]
      refine ⟨?_, Or.inl rfl⟩
      simp only [pow_zero, Nat.div_one]
      calc q < 2 ^ (q.log2 + 1) := h1
        _ ≤ 2 ^ (p.fracBits + 1) := Nat.pow_le_pow_right (by omega) (by omega)
        _ = 2 * 2 ^ p.fracBits := by rw [pow_succ]; ring
    · obtain ⟨j, hj⟩ : ∃ j, q.log2 = p.fracBits + j := ⟨q.log2 - p.fracBits, by omega⟩
      have hz : q.log2 - p.fracBits = j := by omega
      rw [hz]
      rw [hj] at h1 h2
      refine ⟨?_, Or.inr ?_⟩
      · rw [Nat.div_lt_iff_lt_mul (by positivity)]
        calc q < 2 ^ (p.fracBits + j + 1) := h1
          _ = 2 * 2 ^ p.fracBits * 2 ^ j := by rw [pow_succ, pow_add]; ring
      · rw [Nat.le_div_iff_mul_le (by positivity), ← pow_add]
        exact h2

theorem Precision.significand_bounds (p : Precision) (n d : Nat) :
    p.significand n d ≤ 2 * 2 ^ p.fracBits ∧
      (p.spacing n d = 0 ∨ 2 ^ p.fracBits ≤ p.significand n d) := by
  obtain ⟨h1, h2⟩ := p.quotient_bounds n d
  unfold Precision.significand
  simp only
  split
  · exact ⟨h1, h2.imp_right fun h => by omega⟩
  · exact ⟨h1.le, h2⟩

/-- The rounded significand is within half a unit, and even when it is exactly half a unit away. -/
theorem Precision.significand_close (p : Precision) (n d : Nat) (hd : 0 < d) :
    2 * |(p.significand n d : ℤ) * (d * 2 ^ p.spacing n d : ℕ) - n| ≤ (d * 2 ^ p.spacing n d : ℕ) ∧
      (2 * |(p.significand n d : ℤ) * (d * 2 ^ p.spacing n d : ℕ) - n| = (d * 2 ^ p.spacing n d : ℕ) →
        p.significand n d % 2 = 0) := by
  unfold Precision.significand
  have hu : 0 < d * 2 ^ p.spacing n d := by positivity
  generalize d * 2 ^ p.spacing n d = u at *
  simp only
  have hdm : (u : ℤ) * ((n / u : ℕ) : ℤ) + ((n % u : ℕ) : ℤ) = n := by exact_mod_cast Nat.div_add_mod n u
  have hr : n % u < u := Nat.mod_lt _ hu
  generalize n % u = r at *
  generalize n / u = m at *
  have key : ∀ z : ℤ, (m : ℤ) * u - n = -r ∧ ((m + 1 : ℕ) : ℤ) * u - n = u - r := by
    intro _
    constructor
    · linarith
    · push_cast
      linarith
  obtain ⟨k1, k2⟩ := key 0
  split
  · rename_i h
    rw [k2, abs_of_nonneg (by omega)]
    simp only [Bool.or_eq_true, decide_eq_true_eq, Bool.and_eq_true] at h
    omega
  · rename_i h
    rw [k1, abs_neg, abs_of_nonneg (by omega)]
    simp only [Bool.or_eq_true, decide_eq_true_eq, Bool.and_eq_true, not_or, not_and] at h
    omega

/-- The magnitude `roundMag` would give with an unbounded exponent. -/
theorem Precision.magValue_unbounded (p : Precision) (n d : Nat) :
    p.magValue (p.spacing n d * 2 ^ p.fracBits + p.significand n d) =
      p.significand n d * 2 ^ p.spacing n d :=
  p.magValue_encode _ _ (p.significand_bounds n d).1 (p.significand_bounds n d).2

/-- No representable magnitude is nearer than the one `roundMag` would give with an unbounded exponent, and one that is as
near and different leaves an even significand. -/
theorem Precision.nearest_unbounded (p : Precision) (n d : Nat) (hd : 0 < d) (v : Nat) :
    let r := p.significand n d * 2 ^ p.spacing n d
    |(r : ℤ) * d - n| ≤ |(p.magValue v : ℤ) * d - n| ∧
      (|(r : ℤ) * d - n| = |(p.magValue v : ℤ) * d - n| → p.magValue v ≠ r → p.significand n d % 2 = 0) := by
  intro r
  obtain ⟨hclose, htie⟩ := p.significand_close n d hd
  have hq := (p.quotient_bounds n d).2
  have hgrid := p.magValue_grid v (p.spacing n d)
  have hu : 0 < d * 2 ^ p.spacing n d := by positivity
  have hrd : (r : ℤ) * d = (p.significand n d : ℤ) * (d * 2 ^ p.spacing n d : ℕ) := by
    simp only [r]
    push_cast
    ring
  rw [hrd]
  -- a multiple of the unit other than the significand is at least half a unit away
  have multiple : ∀ j : ℤ, |(p.significand n d : ℤ) * (d * 2 ^ p.spacing n d : ℕ) - n| ≤
      |j * (d * 2 ^ p.spacing n d : ℕ) - n| ∧
      (|(p.significand n d : ℤ) * (d * 2 ^ p.spacing n d : ℕ) - n| = |j * (d * 2 ^ p.spacing n d : ℕ) - n| →
        j ≠ p.significand n d → p.significand n d % 2 = 0) := by
    intro j
    generalize hS : (p.significand n d : ℤ) = S at *
    generalize (d * 2 ^ p.spacing n d : ℕ) = u at *
    by_cases hj : j = S
    · subst hj
      exact ⟨le_refl _, fun _ h => absurd rfl h⟩
    · have hsep : (u : ℤ) ≤ |j * u - S * u| := by
        rw [← sub_mul, abs_mul, Nat.abs_cast]
        have : 1 ≤ |j - S| := Int.one_le_abs (sub_ne_zero.mpr hj)
        nlinarith [Int.natCast_nonneg u]
      have htri : |j * u - S * u| ≤ |j * u - n| + |S * u - n| := by
        calc |j * u - S * u| = |(j * u - n) - (S * u - n)| := by ring_nf
          _ ≤ _ := abs_sub _ _
      refine ⟨by linarith, fun heq _ => htie (by linarith)⟩
  have byMultiple : 2 ^ p.spacing n d ∣ p.magValue v →
      |(p.significand n d : ℤ) * (d * 2 ^ p.spacing n d : ℕ) - n| ≤ |(p.magValue v : ℤ) * d - n| ∧
        (|(p.significand n d : ℤ) * (d * 2 ^ p.spacing n d : ℕ) - n| = |(p.magValue v : ℤ) * d - n| →
          p.magValue v ≠ r → p.significand n d % 2 = 0) := by
    rintro ⟨j, hj⟩
    have hvd : (p.magValue v : ℤ) * d = (j : ℤ) * (d * 2 ^ p.spacing n d : ℕ) := by
      rw [hj]
      push_cast
      ring
    rw [hvd]
    refine ⟨(multiple j).1, fun heq hne => (multiple j).2 heq fun hjS => hne ?_⟩
    have : j = p.significand n d := by exact_mod_cast hjS
    rw [hj, this]
    simp only [r]
    ring
  rcases hgrid with h | hlow
  · exact byMultiple h
  · rcases hq with h0 | hbig
    · exact byMultiple (by rw [h0]; simp)
    · have hfar := (multiple (2 ^ p.fracBits : ℕ)).1
      have hn : (2 ^ p.fracBits) * (d * 2 ^ p.spacing n d) ≤ n := by
        have h1 := Nat.div_mul_le_self n (d * 2 ^ p.spacing n d)
        exact le_trans (Nat.mul_le_mul_right _ hbig) h1
      have hvd : p.magValue v * d < (2 ^ p.fracBits) * (d * 2 ^ p.spacing n d) := by
        calc p.magValue v * d < 2 ^ p.fracBits * 2 ^ p.spacing n d * d := Nat.mul_lt_mul_of_pos_right hlow hd
          _ = _ := by ring
      have hlt : |((2 ^ p.fracBits : ℕ) : ℤ) * (d * 2 ^ p.spacing n d : ℕ) - n| < |(p.magValue v : ℤ) * d - n| := by
        have hn' : ((2 ^ p.fracBits : ℕ) : ℤ) * (d * 2 ^ p.spacing n d : ℕ) ≤ n := by exact_mod_cast hn
        have hvd' : (p.magValue v : ℤ) * d < ((2 ^ p.fracBits : ℕ) : ℤ) * (d * 2 ^ p.spacing n d : ℕ) := by
          exact_mod_cast hvd
        rw [abs_of_nonpos (by linarith), abs_of_nonpos (by linarith)]
        linarith
      exact ⟨by linarith, fun heq => absurd heq (by linarith)⟩

/-- A larger encoding stands for a larger magnitude. -/
theorem Precision.magValue_strictMono (p : Precision) : StrictMono p.magValue := by
  apply strictMono_nat_of_lt_succ
  intro mag
  have hpos : 0 < 2 ^ p.fracBits := by positivity
  have hdm := Nat.div_add_mod mag (2 ^ p.fracBits)
  have hf := Nat.mod_lt mag hpos
  have hp := p.magValue_encode
  generalize 2 ^ p.fracBits = F at *
  generalize mag % F = f at *
  generalize mag / F = e at *
  by_cases he : e = 0
  · subst he
    have h0 : mag = 0 * F + f := by omega
    have h1 : mag + 1 = 0 * F + (f + 1) := by omega
    rw [h1, h0, hp 0 f (by omega) (Or.inl rfl), hp 0 (f + 1) (by omega) (Or.inl rfl)]
    simp
  · obtain ⟨k, rfl⟩ : ∃ k, e = k + 1 := ⟨e - 1, by omega⟩
    have h0 : mag = k * F + (F + f) := by rw [← hdm]; ring
    have h1 : mag + 1 = k * F + (F + f + 1) := by rw [h0]; ring
    rw [h1, h0, hp k (F + f) (by omega) (Or.inr (by omega)), hp k (F + f + 1) (by omega) (Or.inr (by omega))]
    exact Nat.mul_lt_mul_of_pos_right (by omega) (by positivity)

/-- Half way between the largest finite magnitude and the one above it, in units of `2 ^ (-scaleBits)`. -/
def Precision.overflowUnits (p : Precision) : Nat := (2 ^ (p.fracBits + 2) - 1) * 2 ^ (2 ^ p.expBits - 4)

theorem Precision.overflowUnits_spec (p : Precision) :
    p.magValue (p.infMag - 1) + p.magValue p.infMag = 2 * p.overflowUnits := by
  cases p <;> decide +kernel

theorem Precision.infMag_pred_odd (p : Precision) : (p.infMag - 1) % 2 = 1 ∧ 0 < p.infMag := by
  cases p <;> decide +kernel

/-- `roundMag` overflows exactly from the overflow bound on. -/
theorem Precision.unbounded_lt_infMag_iff (p : Precision) (n d : Nat) (hd : 0 < d) :
    p.spacing n d * 2 ^ p.fracBits + p.significand n d < p.infMag ↔ n < p.overflowUnits * d := by
  have hval := p.magValue_unbounded n d
  have hB := p.overflowUnits_spec
  obtain ⟨hodd, hinf⟩ := p.infMag_pred_odd
  have hmono := p.magValue_strictMono
  have hlt : p.magValue (p.infMag - 1) < p.magValue p.infMag := hmono (by omega)
  have near1 := (p.nearest_unbounded n d hd (p.infMag - 1)).1
  have near2 := p.nearest_unbounded n d hd p.infMag
  have hpar : (p.spacing n d * 2 ^ p.fracBits + p.significand n d) % 2 = p.significand n d % 2 := by
    have : 2 ∣ p.spacing n d * 2 ^ p.fracBits :=
      Dvd.dvd.mul_left (dvd_pow_self 2 (by have := p.fracBits_pos; omega)) _
    omega
  simp only [← hval] at near1 near2
  generalize henc : p.spacing n d * 2 ^ p.fracBits + p.significand n d = enc at *
  have hBd : (p.magValue (p.infMag - 1) : ℤ) * d + p.magValue p.infMag * d = 2 * ((p.overflowUnits * d : ℕ) : ℤ) := by
    have : ((p.magValue (p.infMag - 1) + p.magValue p.infMag : ℕ) : ℤ) = ((2 * p.overflowUnits : ℕ) : ℤ) := by rw [hB]
    push_cast at this ⊢
    linear_combination (d : ℤ) * this
  have hltd : (p.magValue (p.infMag - 1) : ℤ) * d < p.magValue p.infMag * d := by
    have : (0 : ℤ) < d := by exact_mod_cast hd
    have h2 : (p.magValue (p.infMag - 1) : ℤ) < p.magValue p.infMag := by exact_mod_cast hlt
    nlinarith
  constructor
  · intro h
    by_contra hn
    have hn' : ((p.overflowUnits * d : ℕ) : ℤ) ≤ n := by exact_mod_cast not_lt.mp hn
    have hle : p.magValue enc ≤ p.magValue (p.infMag - 1) := hmono.monotone (by omega)
    have hled : (p.magValue enc : ℤ) * d ≤ p.magValue (p.infMag - 1) * d := by exact_mod_cast Nat.mul_le_mul_right d hle
    have hleft : |(p.magValue enc : ℤ) * d - n| = n - p.magValue enc * d := by
      rw [abs_of_nonpos (by linarith)]
      ring
    rcases le_or_gt (n : ℤ) (p.magValue p.infMag * d) with hc | hc
    · have hright : |(p.magValue p.infMag : ℤ) * d - n| = p.magValue p.infMag * d - n := abs_of_nonneg (by linarith)
      have heq : |(p.magValue enc : ℤ) * d - n| = |(p.magValue p.infMag : ℤ) * d - n| := by
        have := near2.1
        rw [hleft, hright] at *
        linarith
      have hsame : (p.magValue enc : ℤ) * d = p.magValue (p.infMag - 1) * d := by
        rw [hleft, hright] at heq
        linarith
      have hd0 : (d : ℤ) ≠ 0 := by exact_mod_cast hd.ne'
      have hsame' : p.magValue enc = p.magValue (p.infMag - 1) := by exact_mod_cast mul_right_cancel₀ hd0 hsame
      have henc' : enc = p.infMag - 1 := hmono.injective hsame'
      have heven := near2.2 heq (by rw [hsame']; omega)
      omega
    · have hright : |(p.magValue p.infMag : ℤ) * d - n| = n - p.magValue p.infMag * d := by
        rw [abs_of_nonpos (by linarith)]
        ring
      have := near2.1
      rw [hleft, hright] at this
      linarith
  · intro h
    by_contra hn
    have h' : (n : ℤ) < ((p.overflowUnits * d : ℕ) : ℤ) := by exact_mod_cast h
    have hge : p.magValue p.infMag ≤ p.magValue enc := hmono.monotone (by omega)
    have hged : (p.magValue p.infMag : ℤ) * d ≤ p.magValue enc * d := by exact_mod_cast Nat.mul_le_mul_right d hge
    rw [abs_of_nonneg (by linarith : (0 : ℤ) ≤ (p.magValue enc : ℤ) * d - n)] at near1
    rcases abs_cases ((p.magValue (p.infMag - 1) : ℤ) * d - n) with ⟨h1, _⟩ | ⟨h1, _⟩ <;> linarith

/-- Below the overflow bound `roundMag` gives a finite magnitude that no other is nearer than, and an even one at a tie. -/
theorem Precision.roundMag_nearest (p : Precision) (n d : Nat) (hd : 0 < d) (h : n < p.overflowUnits * d) :
    p.roundMag n d < p.infMag ∧ ∀ v,
      |(p.magValue (p.roundMag n d) : ℤ) * d - n| ≤ |(p.magValue v : ℤ) * d - n| ∧
        (|(p.magValue (p.roundMag n d) : ℤ) * d - n| = |(p.magValue v : ℤ) * d - n| →
          p.magValue v ≠ p.magValue (p.roundMag n d) → p.roundMag n d % 2 = 0) := by
  have hlt := (p.unbounded_lt_infMag_iff n d hd).mpr h
  have hval := p.magValue_unbounded n d
  have hpar : (p.spacing n d * 2 ^ p.fracBits + p.significand n d) % 2 = p.significand n d % 2 := by
    have : 2 ∣ p.spacing n d * 2 ^ p.fracBits :=
      Dvd.dvd.mul_left (dvd_pow_self 2 (by have := p.fracBits_pos; omega)) _
    omega
  rw [p.roundMag_eq, min_eq_left hlt.le, hpar, hval]
  exact ⟨hlt, fun v => p.nearest_unbounded n d hd v⟩

/-- From the overflow bound on `roundMag` gives the infinity. -/
theorem Precision.roundMag_overflow (p : Precision) (n d : Nat) (hd : 0 < d) (h : p.overflowUnits * d ≤ n) :
    p.roundMag n d = p.infMag := by
  rw [p.roundMag_eq, min_eq_right]
  by_contra hc
  exact absurd ((p.unbounded_lt_infMag_iff n d hd).mp (not_le.mp hc)) (not_lt.mpr h)

theorem Precision.roundMag_le_infMag (p : Precision) (n d : Nat) : p.roundMag n d ≤ p.infMag := by
  rw [p.roundMag_eq]
  exact min_le_right _ _

/-- A magnitude that is representable rounds to itself. -/
theorem Precision.roundMag_exact (p : Precision) (mag d : Nat) (hd : 0 < d) (hm : mag < p.infMag) :
    p.roundMag (p.magValue mag * d) d = mag := by
  have hmono := p.magValue_strictMono
  have hlt : p.magValue mag * d < p.overflowUnits * d := by
    apply Nat.mul_lt_mul_of_pos_right _ hd
    have h1 : p.magValue mag ≤ p.magValue (p.infMag - 1) := hmono.monotone (by omega)
    have h2 : p.magValue (p.infMag - 1) < p.magValue p.infMag := hmono (by omega)
    have := p.overflowUnits_spec
    omega
  have hnear := ((p.roundMag_nearest _ d hd hlt).2 mag).1
  have hz : |(p.magValue mag : ℤ) * d - ((p.magValue mag * d : ℕ) : ℤ)| = 0 := by
    push_cast
    simp
  rw [hz] at hnear
  have h0 := abs_nonpos_iff.mp hnear
  have hd0 : (d : ℤ) ≠ 0 := by exact_mod_cast hd.ne'
  have hsame : (p.magValue (p.roundMag (p.magValue mag * d) d) : ℤ) = p.magValue mag := by
    apply mul_right_cancel₀ hd0
    push_cast at h0
    linarith
  exact hmono.injective (by exact_mod_cast hsame)

/-- `isqrt` is the floor of the square root. -/
theorem isqrt_spec (fuel n : Nat) (h : n < 4 ^ fuel) :
    isqrt fuel n * isqrt fuel n ≤ n ∧ n < (isqrt fuel n + 1) * (isqrt fuel n + 1) := by
  induction fuel generalizing n with
  | zero =>
    have : n = 0 := by simpa using h
    subst this
    simp [isqrt]
  | succ fuel ih =>
    have hq : n / 4 < 4 ^ fuel := by
      rw [pow_succ] at h
      omega
    obtain ⟨h1, h2⟩ := ih _ hq
    unfold isqrt
    simp only
    generalize isqrt fuel (n / 4) = r at *
    have hlow : 4 * (r * r) ≤ n := by omega
    have hhigh : n < 4 * ((r + 1) * (r + 1)) := by omega
    split
    · rename_i hc
      exact ⟨hc, by nlinarith⟩
    · rename_i hc
      exact ⟨by nlinarith, by nlinarith [not_le.mp hc]⟩

end Sys2Proof
end

