-- ==== Sys2Proof/Laws/Words.lean ====
section
/-! SUPPORT. One lemma per question asked of a built word (its sign, magnitude, class, width), and of each primitive's result:
its class, its width, and that NaN draws change nothing but NaN bit patterns. -/

namespace Sys2Proof

theorem Precision.infMag_lt (p : Precision) : p.infMag < 2 ^ (p.width - 1) := by cases p <;> decide

theorem Precision.fits_iff (p : Precision) (w : FWord) : p.fits w = true ↔ w.toNat < 2 ^ p.width := by
  simp [Precision.fits]

theorem Precision.isNaN_iff (p : Precision) (w : FWord) : p.isNaN w = true ↔ p.infMag < p.magBits w := by
  simp [Precision.isNaN]

theorem Precision.signBit_mkWord (p : Precision) (s : Bool) (mag : Nat) (h : mag < 2 ^ (p.width - 1)) :
    p.signBit (p.mkWord s mag) = s := by
  cases p <;> cases s <;>
    simp only [Precision.signBit, Precision.mkWord, Precision.width, BitVec.toNat_ofNat, Nat.testBit_eq_decide_div_mod_eq,
      Nat.reduceSub, Nat.reducePow, if_true, if_false, Bool.false_eq_true] at * <;>
    simp only [decide_eq_true_eq, decide_eq_false_iff_not] <;> omega

theorem Precision.magBits_mkWord (p : Precision) (s : Bool) (mag : Nat) (h : mag < 2 ^ (p.width - 1)) :
    p.magBits (p.mkWord s mag) = mag := by
  cases p <;> cases s <;>
    simp only [Precision.magBits, Precision.mkWord, Precision.width, BitVec.toNat_ofNat,
      Nat.reduceSub, Nat.reducePow, if_true, if_false, Bool.false_eq_true] at * <;> omega

theorem Precision.fits_mkWord (p : Precision) (s : Bool) (mag : Nat) (h : mag < 2 ^ (p.width - 1)) :
    p.fits (p.mkWord s mag) = true := by
  rw [p.fits_iff]
  cases p <;> cases s <;>
    simp only [Precision.mkWord, Precision.width, BitVec.toNat_ofNat,
      Nat.reduceSub, Nat.reducePow, if_true, if_false, Bool.false_eq_true] at * <;> omega

/-- A word of `W` bits is its sign and its magnitude. -/
theorem Precision.mkWord_eta (p : Precision) (w : FWord) (h : p.fits w = true) :
    p.mkWord (p.signBit w) (p.magBits w) = w := by
  apply BitVec.eq_of_toNat_eq
  have hw := w.isLt
  rw [p.fits_iff] at h
  cases p <;>
    simp only [Precision.mkWord, Precision.width, Precision.signBit, Precision.magBits,
      BitVec.toNat_ofNat, Nat.testBit_eq_decide_div_mod_eq, decide_eq_true_eq, Nat.reduceSub, Nat.reducePow] at * <;>
    split <;> omega

@[simp] theorem Precision.fits_cut (p : Precision) (w : FWord) : p.fits (p.cut w) = true := by
  have hw := w.isLt
  rw [p.fits_iff]
  cases p <;> simp only [Precision.cut, Precision.width, BitVec.toNat_ofNat, Nat.reducePow] <;> omega

theorem Precision.cut_of_fits (p : Precision) (w : FWord) (h : p.fits w = true) : p.cut w = w := by
  apply BitVec.eq_of_toNat_eq
  have hw := w.isLt
  rw [p.fits_iff] at h
  cases p <;> simp only [Precision.cut, Precision.width, BitVec.toNat_ofNat, Nat.reducePow] at * <;> omega

@[simp] theorem Precision.fits_zero (p : Precision) : p.fits 0#64 = true := by cases p <;> decide

/-- The NaN of a draw has a magnitude above the infinities' and within `W - 1` bits. -/
theorem Precision.nanMag_bounds (p : Precision) (draw : FWord) :
    let f := p.magBits draw % 2 ^ p.fracBits
    p.infMag < (p.infMag + if f = 0 then 2 ^ (p.fracBits - 1) else f) ∧
      (p.infMag + if f = 0 then 2 ^ (p.fracBits - 1) else f) < 2 ^ (p.width - 1) := by
  intro f
  have hf : f < 2 ^ p.fracBits := Nat.mod_lt _ (by positivity)
  cases p <;>
    simp only [Precision.infMag, Precision.width, Precision.fracBits, Precision.expBits, Nat.reduceSub, Nat.reducePow,
      Nat.reduceMul] at * <;> split <;> omega

@[simp] theorem Precision.isNaN_nanWord (p : Precision) (draw : FWord) : p.isNaN (p.nanWord draw) = true := by
  obtain ⟨h1, h2⟩ := p.nanMag_bounds draw
  simp only [Precision.isNaN, Precision.nanWord, p.magBits_mkWord _ _ h2, decide_eq_true_eq]
  exact h1

@[simp] theorem Precision.fits_nanWord (p : Precision) (draw : FWord) : p.fits (p.nanWord draw) = true :=
  p.fits_mkWord _ _ (p.nanMag_bounds draw).2

/-- Every NaN of `F_P` is the NaN of some draw. -/
theorem Precision.nanWord_self (p : Precision) (w : FWord) (hf : p.fits w = true) (hn : p.isNaN w = true) :
    p.nanWord w = w := by
  have hm : p.magBits w < 2 ^ (p.width - 1) := Nat.mod_lt _ (by positivity)
  have hmag : (p.infMag + if p.magBits w % 2 ^ p.fracBits = 0 then 2 ^ (p.fracBits - 1) else p.magBits w % 2 ^ p.fracBits) =
      p.magBits w := by
    rw [p.isNaN_iff] at hn
    have hne : p.magBits w % 2 ^ p.fracBits ≠ 0 ∧ p.infMag + p.magBits w % 2 ^ p.fracBits = p.magBits w := by
      generalize p.magBits w = m at *
      cases p <;>
        simp only [Precision.infMag, Precision.width, Precision.fracBits, Precision.expBits, Nat.reduceSub, Nat.reducePow,
          Nat.reduceMul] at * <;> omega
    rw [if_neg hne.1, hne.2]
  unfold Precision.nanWord
  simp only [hmag]
  exact p.mkWord_eta w hf

/-- A magnitude up to the infinities' builds a word that is no NaN. -/
theorem Precision.isNaN_mkWord (p : Precision) (s : Bool) (mag : Nat) (h : mag ≤ p.infMag) :
    p.isNaN (p.mkWord s mag) = false := by
  simp only [Precision.isNaN, p.magBits_mkWord s mag (lt_of_le_of_lt h p.infMag_lt), decide_eq_false_iff_not]
  omega

/-- Rounded magnitudes are in range. -/
theorem Precision.roundMag_lt (p : Precision) (n d : Nat) : p.roundMag n d < 2 ^ (p.width - 1) :=
  lt_of_le_of_lt (p.roundMag_le_infMag n d) p.infMag_lt

theorem Precision.not_isNaN_of_isInf (p : Precision) {w : FWord} (h : p.isInf w = true) : p.isNaN w = false := by
  simp only [Precision.isInf, beq_iff_eq] at h
  simp [Precision.isNaN, h]

theorem Precision.finite_iff (p : Precision) (w : FWord) :
    p.finite w = true ↔ p.isNaN w = false ∧ p.isInf w = false := by
  simp only [Precision.finite, Precision.isNaN, Precision.isInf, decide_eq_true_eq, decide_eq_false_iff_not, beq_eq_false_iff_ne,
    ne_eq]
  omega

theorem Precision.finite_of_isZero (p : Precision) {w : FWord} (h : p.isZero w = true) : p.finite w = true := by
  simp only [Precision.isZero, beq_iff_eq] at h
  simp only [Precision.finite, h, decide_eq_true_eq]
  cases p <;> decide

theorem Precision.scaled_eq_zero_iff (p : Precision) (w : FWord) : p.scaled w = 0 ↔ p.isZero w = true := by
  have h0 : p.magValue 0 = 0 := by cases p <;> decide
  simp only [Precision.scaled, Precision.isZero, beq_iff_eq]
  constructor
  · intro h
    exact p.magValue_strictMono.injective (by rw [h, h0])
  · intro h
    rw [h, h0]

theorem Precision.isZero_zeroWord (p : Precision) (s : Bool) : p.isZero (p.zeroWord s) = true := by
  simp [Precision.isZero, Precision.zeroWord, p.magBits_mkWord s 0 (by positivity)]

theorem Precision.isZero_zero (p : Precision) : p.isZero 0#64 = true := by cases p <;> decide

/-! ### The same value, NaN bit patterns apart -/

theorem Precision.same_refl (p : Precision) (w : FWord) : p.same w w := Or.inl rfl

theorem Precision.same_symm (p : Precision) {v w : FWord} (h : p.same v w) : p.same w v :=
  h.elim (fun h => Or.inl h.symm) fun ⟨a, b⟩ => Or.inr ⟨b, a⟩

theorem Precision.same_trans (p : Precision) {u v w : FWord} (h : p.same u v) (k : p.same v w) : p.same u w := by
  rcases h with rfl | ⟨a, b⟩
  · exact k
  · rcases k with rfl | ⟨_, d⟩
    · exact Or.inr ⟨a, b⟩
    · exact Or.inr ⟨a, d⟩

theorem Precision.same_isNaN (p : Precision) {v w : FWord} (h : p.same v w) : p.isNaN v = p.isNaN w := by
  rcases h with rfl | ⟨a, b⟩
  · rfl
  · rw [a, b]

theorem Precision.eq_of_same (p : Precision) {v w : FWord} (h : p.same v w) (hn : p.isNaN v = false) : v = w := by
  rcases h with rfl | ⟨a, _⟩
  · rfl
  · simp [a] at hn

theorem Precision.same_nanWord (p : Precision) (m n : FWord) : p.same (p.nanWord m) (p.nanWord n) :=
  Or.inr ⟨p.isNaN_nanWord m, p.isNaN_nanWord n⟩

/-! ### Sign flip -/

theorem fneg_magBits (p : Precision) (a : FWord) : p.magBits (fneg p a) = p.magBits a :=
  p.magBits_mkWord _ _ (Nat.mod_lt _ (by positivity))

theorem fneg_signBit (p : Precision) (a : FWord) : p.signBit (fneg p a) = !p.signBit a :=
  p.signBit_mkWord _ _ (Nat.mod_lt _ (by positivity))

@[simp] theorem fneg_fits (p : Precision) (a : FWord) : p.fits (fneg p a) = true :=
  p.fits_mkWord _ _ (Nat.mod_lt _ (by positivity))

@[simp] theorem fneg_isNaN (p : Precision) (a : FWord) : p.isNaN (fneg p a) = p.isNaN a := by
  simp [Precision.isNaN, fneg_magBits]

@[simp] theorem fneg_isInf (p : Precision) (a : FWord) : p.isInf (fneg p a) = p.isInf a := by
  simp [Precision.isInf, fneg_magBits]

@[simp] theorem fneg_isZero (p : Precision) (a : FWord) : p.isZero (fneg p a) = p.isZero a := by
  simp [Precision.isZero, fneg_magBits]

@[simp] theorem fneg_finite (p : Precision) (a : FWord) : p.finite (fneg p a) = p.finite a := by
  simp [Precision.finite, fneg_magBits]

theorem fneg_scaledInt (p : Precision) (a : FWord) : p.scaledInt (fneg p a) = -p.scaledInt a := by
  simp only [Precision.scaledInt, fneg_signBit, Precision.scaled, fneg_magBits]
  cases p.signBit a <;> simp

theorem fneg_same (p : Precision) {a b : FWord} (h : p.same a b) : p.same (fneg p a) (fneg p b) := by
  rcases h with rfl | ⟨x, y⟩
  · exact p.same_refl _
  · exact Or.inr ⟨by simpa using x, by simpa using y⟩

theorem fneg_mkWord (p : Precision) (s : Bool) (mag : Nat) (h : mag < 2 ^ (p.width - 1)) :
    fneg p (p.mkWord s mag) = p.mkWord (!s) mag := by
  simp only [fneg, p.signBit_mkWord _ _ h, p.magBits_mkWord _ _ h]

/-! ### NaN operands give NaNs -/

theorem fadd_nan (p : Precision) (n a b : FWord) (h : p.isNaN a = true ∨ p.isNaN b = true) :
    p.isNaN (fadd p n a b) = true := by
  have : (p.isNaN a || p.isNaN b) = true := by simpa using h
  simp [fadd, this]

theorem fsub_nan (p : Precision) (n a b : FWord) (h : p.isNaN a = true ∨ p.isNaN b = true) :
    p.isNaN (fsub p n a b) = true :=
  fadd_nan p n a _ (by simpa using h)

theorem fmul_nan (p : Precision) (n a b : FWord) (h : p.isNaN a = true ∨ p.isNaN b = true) :
    p.isNaN (fmul p n a b) = true := by
  have : (p.isNaN a || p.isNaN b) = true := by simpa using h
  simp [fmul, this]

theorem fdiv_nan (p : Precision) (n a b : FWord) (h : p.isNaN a = true ∨ p.isNaN b = true) :
    p.isNaN (fdiv p n a b) = true := by
  have : (p.isNaN a || p.isNaN b) = true := by simpa using h
  simp [fdiv, this]

theorem fsqrt_nan (p : Precision) (n a : FWord) (h : p.isNaN a = true) : p.isNaN (fsqrt p n a) = true := by
  simp [fsqrt, h]

/-- A quotient that is no NaN changes its sign with its dividend. -/
theorem fdiv_fneg (p : Precision) (m n a b : FWord) (h : p.isNaN (fdiv p m a b) = false) :
    fdiv p n (fneg p a) b = fneg p (fdiv p m a b) := by
  have hn : ¬ (p.isNaN a = true ∨ p.isNaN b = true) := fun hh => by
    rw [fdiv_nan p m a b hh] at h
    cases h
  rw [not_or, Bool.not_eq_true, Bool.not_eq_true] at hn
  have hflip : ∀ x y : Bool, ((!x) != y) = !(x != y) := by decide
  unfold fdiv at h ⊢
  simp only [fneg_isNaN, fneg_isInf, fneg_isZero, fneg_signBit, hn.1, hn.2, Bool.or_self, Precision.scaled, fneg_magBits,
    hflip] at h ⊢
  split_ifs at h ⊢ <;>
    simp_all [Precision.infWord, Precision.zeroWord, fneg_mkWord _ _ _ p.infMag_lt,
      fneg_mkWord _ _ _ (show 0 < 2 ^ (p.width - 1) by positivity), fneg_mkWord _ _ _ (p.roundMag_lt _ _)]

/-! ### Draws change nothing but NaN bit patterns -/

theorem fadd_same (p : Precision) (m n : FWord) {a a' b b' : FWord} (ha : p.same a a') (hb : p.same b b') :
    p.same (fadd p m a b) (fadd p n a' b') := by
  by_cases h : p.isNaN a = true ∨ p.isNaN b = true
  · exact Or.inr ⟨fadd_nan p m a b h, fadd_nan p n a' b' (by rwa [← p.same_isNaN ha, ← p.same_isNaN hb])⟩
  · rw [not_or, Bool.not_eq_true, Bool.not_eq_true] at h
    obtain rfl := p.eq_of_same ha h.1
    obtain rfl := p.eq_of_same hb h.2
    unfold fadd
    simp only [h.1, h.2, Bool.or_self]
    split_ifs <;> first | exact p.same_refl _ | exact p.same_nanWord _ _

theorem fsub_same (p : Precision) (m n : FWord) {a a' b b' : FWord} (ha : p.same a a') (hb : p.same b b') :
    p.same (fsub p m a b) (fsub p n a' b') :=
  fadd_same p m n ha (fneg_same p hb)

theorem fmul_same (p : Precision) (m n : FWord) {a a' b b' : FWord} (ha : p.same a a') (hb : p.same b b') :
    p.same (fmul p m a b) (fmul p n a' b') := by
  by_cases h : p.isNaN a = true ∨ p.isNaN b = true
  · exact Or.inr ⟨fmul_nan p m a b h, fmul_nan p n a' b' (by rwa [← p.same_isNaN ha, ← p.same_isNaN hb])⟩
  · rw [not_or, Bool.not_eq_true, Bool.not_eq_true] at h
    obtain rfl := p.eq_of_same ha h.1
    obtain rfl := p.eq_of_same hb h.2
    unfold fmul
    simp only [h.1, h.2, Bool.or_self]
    split_ifs <;> first | exact p.same_refl _ | exact p.same_nanWord _ _

theorem fdiv_same (p : Precision) (m n : FWord) {a a' b b' : FWord} (ha : p.same a a') (hb : p.same b b') :
    p.same (fdiv p m a b) (fdiv p n a' b') := by
  by_cases h : p.isNaN a = true ∨ p.isNaN b = true
  · exact Or.inr ⟨fdiv_nan p m a b h, fdiv_nan p n a' b' (by rwa [← p.same_isNaN ha, ← p.same_isNaN hb])⟩
  · rw [not_or, Bool.not_eq_true, Bool.not_eq_true] at h
    obtain rfl := p.eq_of_same ha h.1
    obtain rfl := p.eq_of_same hb h.2
    unfold fdiv
    simp only [h.1, h.2, Bool.or_self]
    split_ifs <;> first | exact p.same_refl _ | exact p.same_nanWord _ _

theorem fsqrt_same (p : Precision) (m n : FWord) {a a' : FWord} (ha : p.same a a') :
    p.same (fsqrt p m a) (fsqrt p n a') := by
  by_cases h : p.isNaN a = true
  · exact Or.inr ⟨fsqrt_nan p m a h, fsqrt_nan p n a' (by rwa [← p.same_isNaN ha])⟩
  · rw [Bool.not_eq_true] at h
    obtain rfl := p.eq_of_same ha h
    unfold fsqrt
    simp only [h]
    split_ifs <;> first | exact p.same_refl _ | exact p.same_nanWord _ _

/-! ### Results are words of `W` bits -/

@[simp] theorem Precision.fits_infWord (p : Precision) (s : Bool) : p.fits (p.infWord s) = true :=
  p.fits_mkWord _ _ p.infMag_lt

@[simp] theorem Precision.fits_zeroWord (p : Precision) (s : Bool) : p.fits (p.zeroWord s) = true :=
  p.fits_mkWord _ _ (by positivity)

@[simp] theorem Precision.fits_mkWord_round (p : Precision) (s : Bool) (n d : Nat) :
    p.fits (p.mkWord s (p.roundMag n d)) = true :=
  p.fits_mkWord _ _ (p.roundMag_lt _ _)

@[simp] theorem Precision.fits_roundInt (p : Precision) (z : Bool) (v : Int) : p.fits (p.roundInt z v) = true := by
  unfold Precision.roundInt
  split
  · exact p.fits_zeroWord z
  · simp

@[simp] theorem fadd_fits (p : Precision) (n a b : FWord) : p.fits (fadd p n a b) = true := by
  unfold fadd
  split_ifs <;> simp

@[simp] theorem fsub_fits (p : Precision) (n a b : FWord) : p.fits (fsub p n a b) = true := fadd_fits p n a _

@[simp] theorem fmul_fits (p : Precision) (n a b : FWord) : p.fits (fmul p n a b) = true := by
  unfold fmul
  simp only
  split_ifs <;> simp

@[simp] theorem fdiv_fits (p : Precision) (n a b : FWord) : p.fits (fdiv p n a b) = true := by
  unfold fdiv
  simp only
  split_ifs <;> simp

/-! ### Zeros -/

/-- A finite factor times a zero is a zero. -/
theorem fmul_zero (p : Precision) (n a b : FWord) (ha : p.finite a = true) (hb : p.isZero b = true) :
    p.isZero (fmul p n a b) = true := by
  obtain ⟨ha1, ha2⟩ := (p.finite_iff a).mp ha
  obtain ⟨hb1, hb2⟩ := (p.finite_iff b).mp (p.finite_of_isZero hb)
  have hs : p.scaled b = 0 := (p.scaled_eq_zero_iff b).mpr hb
  have hr : p.roundMag 0 (2 ^ p.scaleBits) = 0 := by cases p <;> decide +kernel
  simp only [fmul, ha1, ha2, hb1, hb2, Bool.or_self, hs, Nat.mul_zero, hr, Bool.false_eq_true, if_false]
  exact p.isZero_zeroWord _

/-- The sum of two zeros is a zero. -/
theorem fadd_zero_zero (p : Precision) (n a b : FWord) (ha : p.isZero a = true) (hb : p.isZero b = true) :
    p.isZero (fadd p n a b) = true := by
  obtain ⟨ha1, ha2⟩ := (p.finite_iff a).mp (p.finite_of_isZero ha)
  obtain ⟨hb1, hb2⟩ := (p.finite_iff b).mp (p.finite_of_isZero hb)
  have hsa : p.scaledInt a = 0 := by simp [Precision.scaledInt, (p.scaled_eq_zero_iff a).mpr ha]
  have hsb : p.scaledInt b = 0 := by simp [Precision.scaledInt, (p.scaled_eq_zero_iff b).mpr hb]
  simp only [fadd, ha1, ha2, hb1, hb2, Bool.or_self, hsa, hsb, Bool.false_eq_true, if_false, Precision.roundInt, add_zero,
    if_true]
  exact p.isZero_zeroWord _

theorem fsub_zero_zero (p : Precision) (n a b : FWord) (ha : p.isZero a = true) (hb : p.isZero b = true) :
    p.isZero (fsub p n a b) = true :=
  fadd_zero_zero p n a _ ha (by simpa using hb)

end Sys2Proof
end

