-- ==== Sys2Proof/Laws/Burst.lean ====
section
/-! SUPPORT. What a burst leaves unchanged, how it splits, and what it writes to `OUT`. -/

namespace Sys2Proof.Machine

@[simp] theorem burst_zero (n : Nat) (s : State) : burst 0 n s = (s, []) := rfl

theorem burst_succ (k n : Nat) (s : State) :
    burst (k + 1) n s =
      ((burst k (n + 1) (s.sampleStep n)).1, s.sampleOut n :: (burst k (n + 1) (s.sampleStep n)).2) := rfl

/-- A burst of `k + m` steps is a burst of `k` steps and then one of `m` steps. -/
theorem burst_add (k m n : Nat) (s : State) :
    burst (k + m) n s =
      ((burst m (n + k) (burst k n s).1).1, (burst k n s).2 ++ (burst m (n + k) (burst k n s).1).2) := by
  induction k generalizing n s with
  | zero => simp
  | succ k ih =>
    rw [Nat.succ_add_eq_add_succ, Nat.add_succ, burst_succ, burst_succ, ih]
    simp [Nat.add_assoc, Nat.add_comm 1 k]

/-- What a burst never changes, and how many draws it uses. -/
theorem burst_frame (k n : Nat) (s : State) :
    (burst k n s).1.params = s.params ∧ (burst k n s).1.coeffs = s.coeffs ∧ (burst k n s).1.sr = s.sr ∧
      (burst k n s).1.prepared = s.prepared ∧ (burst k n s).1.configured = s.configured ∧
      (burst k n s).1.pending = s.pending ∧ (burst k n s).1.placement = s.placement ∧
      (burst k n s).1.response = s.response ∧ (burst k n s).1.history.form = s.history.form ∧
      (burst k n s).1.draws = s.draws + k := by
  induction k generalizing n s with
  | zero => simp
  | succ k ih =>
    rw [burst_succ]
    have h := ih (n + 1) (s.sampleStep n)
    simp only [State.sampleStep_params, State.sampleStep_coeffs, State.sampleStep_sr, State.sampleStep_prepared,
      State.sampleStep_configured, State.sampleStep_pending, State.sampleStep_placement, State.sampleStep_response,
      State.sampleStep_history, State.sampleStep_draws, sectionNext_form] at h
    obtain ⟨h1, h2, h3, h4, h5, h6, h7, h8, h9, h10⟩ := h
    exact ⟨h1, h2, h3, h4, h5, h6, h7, h8, h9, by rw [h10]; omega⟩

/-- A burst of `k` steps gives `k` output samples. -/
@[simp] theorem burst_length (k n : Nat) (s : State) : (burst k n s).2.length = k := by
  induction k generalizing n s with
  | zero => rfl
  | succ k ih => simp [burst_succ, ih]

/-- Separate buffers: a burst does not change `IN`. -/
theorem burst_inBuf_separate (k n : Nat) (s : State) (h : s.placement = .separate) :
    (burst k n s).1.inBuf = s.inBuf := by
  induction k generalizing n s with
  | zero => rfl
  | succ k ih =>
    rw [burst_succ]
    simp only
    rw [ih (n + 1) (s.sampleStep n) h, State.sampleStep_inBuf_separate s n h]

theorem putSample_take (buf : List FWord) (n : Nat) (v : FWord) (h : n ≤ buf.length) :
    (putSample buf n v).take (n + 1) = buf.take n ++ [v] := by
  simp [putSample, List.take_append, List.take_take, h]

theorem putSample_drop (buf : List FWord) (n k : Nat) (v : FWord) (h : n ≤ buf.length) :
    (putSample buf n v).drop (n + 1 + k) = buf.drop (n + 1 + k) := by
  have hl : (buf.take n ++ [v]).length = n + 1 := by simp [h]
  rw [putSample, List.append_cons, List.drop_append, hl, Nat.add_sub_cancel_left, List.drop_drop,
    List.drop_eq_nil_of_le (by omega), List.nil_append]

theorem putSample_length (buf : List FWord) (n : Nat) (v : FWord) (h : n ≤ buf.length) :
    n + 1 ≤ (putSample buf n v).length := by
  simp [putSample]
  omega

/-- An element other than the one written reads as before. -/
theorem putSample_getElem? (buf : List FWord) (n m : Nat) (v : FWord) (h : n ≤ buf.length) (hm : m ≠ n) :
    (putSample buf n v)[m]? = buf[m]? := by
  rcases Nat.lt_or_gt_of_ne hm with hlt | hgt
  · rw [putSample, List.getElem?_append_left (by simp; omega), List.getElem?_take_of_lt hlt]
  · obtain ⟨j, rfl⟩ : ∃ j, m = n + 1 + j := ⟨m - (n + 1), by omega⟩
    rw [← List.getElem?_drop, ← List.getElem?_drop (xs := buf) (i := n + 1) (j := j)]
    have := putSample_drop buf n 0 v h
    simp only [Nat.add_zero] at this
    rw [this]

/-- Steps from `n` on write the elements from `n` on and leave every other element alone. -/
theorem burst_outBuf (k n : Nat) (s : State) (h : n ≤ s.outBuf.length) :
    (burst k n s).1.outBuf = s.outBuf.take n ++ (burst k n s).2 ++ s.outBuf.drop (n + k) := by
  induction k generalizing n s with
  | zero => simp
  | succ k ih =>
    rw [burst_succ]
    have hl : n + 1 ≤ (s.sampleStep n).outBuf.length := putSample_length _ _ _ h
    simp only
    rw [ih (n + 1) (s.sampleStep n) hl]
    have ht : (s.sampleStep n).outBuf.take (n + 1) = s.outBuf.take n ++ [s.sampleOut n] :=
      putSample_take _ _ _ h
    have hd : (s.sampleStep n).outBuf.drop (n + 1 + k) = s.outBuf.drop (n + (k + 1)) := by
      rw [State.sampleStep_outBuf, putSample_drop _ _ _ _ h, Nat.add_assoc, Nat.add_comm 1 k]
    rw [ht, hd]
    simp

theorem State.inSample_fits (s : State) (n : Nat) : s.params.precision.fits (s.inSample n) = true :=
  s.params.precision.fits_cut _

theorem sectionOut_fits (p : Precision) (d : Draws) (c : Coeffs) (h : History) (x : FWord) :
    p.fits (sectionOut p d c h x) = true := by
  cases h <;> simp [sectionOut, recur, transposedOut]

theorem sectionNext_fits (p : Precision) (d : Draws) (c : Coeffs) (h : History) (x y : FWord)
    (hh : h.all p.fits = true) (hx : p.fits x = true) (hy : p.fits y = true) :
    (sectionNext p d c h x y).all p.fits = true := by
  cases h <;> simp_all [sectionNext, History.all, transposedSum1, transposedSum2]

/-! ### A burst is the section over its input samples -/

/-- What element `j` gives to a burst that began with draw number `base` (20_memory.md R50). -/
def State.sampleAt (s : State) (base j : Nat) : FWord :=
  s.params.precision.cut (s.inBuf.getD j (Config.hostSample (base + j)))

/-- Writing element `n` of `OUT` leaves every other element of `IN` as it was, also where the two are one storage. -/
theorem State.sampleStep_sampleAt (s : State) (base n j : Nat) (hn : n ≤ s.inBuf.length) (hj : j ≠ n) :
    (s.sampleStep n).sampleAt base j = s.sampleAt base j := by
  have h : (s.sampleStep n).inBuf[j]? = s.inBuf[j]? := by
    simp only [State.sampleStep, State.writeOut]
    split
    · rfl
    · exact putSample_getElem? _ _ _ _ hn hj
    · rfl
  simp only [State.sampleAt, List.getD_eq_getElem?_getD, h, State.sampleStep_params]

theorem State.sampleStep_inBuf_length (s : State) (n : Nat) (hs : s.placement = .same) (hn : n ≤ s.inBuf.length) :
    n + 1 ≤ (s.sampleStep n).inBuf.length := by
  simp only [State.sampleStep, State.writeOut, hs]
  exact putSample_length _ _ _ hn

/-- A burst from element `n` on gives the section's outputs and leaves the section's history (42_process_section.md R121). `base`
is the draw number at which the command began. Where the buffers are one storage, the elements before `n` are there. -/
theorem burst_filterList (k n base : Nat) (s : State) (hd : s.draws = base + n)
    (hs : s.placement = .same → n ≤ s.inBuf.length) :
    (burst k n s).2 = (filterList s.params.precision (fun m => Config.nanBits (base + m)) s.coeffs s.history n
        ((List.range' n k).map (s.sampleAt base))).2 ∧
      (burst k n s).1.history = (filterList s.params.precision (fun m => Config.nanBits (base + m)) s.coeffs s.history n
        ((List.range' n k).map (s.sampleAt base))).1 := by
  induction k generalizing n s with
  | zero => simp [filterList]
  | succ k ih =>
    have hmap : (List.range' (n + 1) k).map ((s.sampleStep n).sampleAt base) =
        (List.range' (n + 1) k).map (s.sampleAt base) := by
      apply List.map_congr_left
      intro j hj
      have hjn : n + 1 ≤ j := by
        rw [List.mem_range'_1] at hj
        exact hj.1
      by_cases hp : s.placement = .same
      · exact s.sampleStep_sampleAt base n j (hs hp) (by omega)
      · have hin : (s.sampleStep n).inBuf = s.inBuf := by
          simp only [State.sampleStep, State.writeOut]
          split <;> first | rfl | contradiction
        simp only [State.sampleAt, hin, State.sampleStep_params]
    obtain ⟨h1, h2⟩ := ih (n + 1) (s.sampleStep n) (by rw [State.sampleStep_draws, hd]; omega) (fun hp => by
      rw [State.sampleStep_placement] at hp
      exact s.sampleStep_inBuf_length n hp (hs hp))
    rw [hmap] at h1 h2
    have hx : s.inSample n = s.sampleAt base n := by simp only [State.inSample, State.sampleAt, hd]
    rw [burst_succ, List.range'_succ, List.map_cons, filterList]
    simp only [h1, h2, State.sampleStep_params, State.sampleStep_coeffs, State.sampleStep_history, State.sampleOut, hx, hd,
      and_self]

/-- The samples a whole PROCESS reads (20_memory.md R46). -/
theorem State.input_eq (s : State) (k : Nat) : (List.range' 0 k).map (s.sampleAt s.draws) = s.input k := by
  rw [← List.range_eq_range']
  rfl

@[simp] theorem State.input_length (s : State) (k : Nat) : (s.input k).length = k := by simp [State.input]

/-- A host that hands over as many samples as it announces leaves none free. -/
theorem State.input_of_length (s : State) (k : Nat) (h : s.inBuf.length = k) :
    s.input k = s.inBuf.map s.params.precision.cut := by
  apply List.ext_getElem
  · simp [h]
  · intro i h1 h2
    have hi : i < s.inBuf.length := by simpa using h2
    simp [State.input, hi]

/-- One buffer passed as both: `IN` ends as `OUT` does (20_memory.md R43). -/
theorem burst_inBuf_same (k n : Nat) (s : State) (hp : s.placement = .same) (h : n ≤ s.inBuf.length) :
    (burst k n s).1.inBuf = s.inBuf.take n ++ (burst k n s).2 ++ s.inBuf.drop (n + k) := by
  induction k generalizing n s with
  | zero => simp
  | succ k ih =>
    rw [burst_succ]
    have hb : (s.sampleStep n).inBuf = putSample s.inBuf n (s.sampleOut n) := by
      simp only [State.sampleStep, State.writeOut, hp]
    have hl : n + 1 ≤ (s.sampleStep n).inBuf.length := hb ▸ putSample_length _ _ _ h
    simp only
    rw [ih (n + 1) (s.sampleStep n) hp hl, hb, putSample_take _ _ _ h, putSample_drop _ _ _ _ h, Nat.add_assoc, Nat.add_comm 1 k]
    simp

/-- `filterList` over a list in two parts (42_process_section.md R125). -/
theorem filterList_append (p : Precision) (d : Nat → Draws) (c : Coeffs) (h : History) (n : Nat) (u v : List FWord) :
    filterList p d c h n (u ++ v) =
      ((filterList p d c (filterList p d c h n u).1 (n + u.length) v).1,
        (filterList p d c h n u).2 ++ (filterList p d c (filterList p d c h n u).1 (n + u.length) v).2) := by
  induction u generalizing h n with
  | nil => simp [filterList]
  | cons x u ih =>
    rw [List.cons_append, filterList, filterList, ih]
    simp [Nat.add_assoc, Nat.add_comm 1 u.length]

@[simp] theorem filterList_length (p : Precision) (d : Nat → Draws) (c : Coeffs) (h : History) (n : Nat) (xs : List FWord) :
    (filterList p d c h n xs).2.length = xs.length := by
  induction xs generalizing h n with
  | nil => rfl
  | cons x xs ih => simp [filterList, ih]

theorem History.same_refl (p : Precision) (h : History) : h.same p h := by
  cases h <;> simp [History.same, p.same_refl]

/-- A step on histories of the same value gives outputs and histories of the same value (00_scope.md R13). -/
theorem sectionOut_same (p : Precision) (d d' : Draws) (c : Coeffs) (h h' : History) (x : FWord) (hh : h.same p h') :
    p.same (sectionOut p d c h x) (sectionOut p d' c h' x) := by
  cases h <;> cases h' <;> simp only [History.same] at hh
  · obtain ⟨h1, h2, h3, h4⟩ := hh
    simp only [sectionOut, recur]
    exact fsub_same p _ _ (fsub_same p _ _ (fadd_same p _ _ (fadd_same p _ _
      (fmul_same p _ _ (p.same_refl _) (p.same_refl _)) (fmul_same p _ _ (p.same_refl _) h1))
      (fmul_same p _ _ (p.same_refl _) h2)) (fmul_same p _ _ (p.same_refl _) h3)) (fmul_same p _ _ (p.same_refl _) h4)
  · obtain ⟨h1, h2⟩ := hh
    simp only [sectionOut, transposedOut]
    exact fadd_same p _ _ (fmul_same p _ _ (p.same_refl _) (p.same_refl _)) h1

theorem sectionNext_same (p : Precision) (d d' : Draws) (c : Coeffs) (h h' : History) (x y y' : FWord) (hh : h.same p h')
    (hy : p.same y y') : (sectionNext p d c h x y).same p (sectionNext p d' c h' x y') := by
  cases h <;> cases h' <;> simp only [History.same] at hh
  · obtain ⟨h1, h2, h3, h4⟩ := hh
    exact ⟨p.same_refl _, h1, hy, h3⟩
  · obtain ⟨h1, h2⟩ := hh
    simp only [sectionNext, transposedSum1, transposedSum2]
    exact ⟨fadd_same p _ _ (fsub_same p _ _ (fmul_same p _ _ (p.same_refl _) (p.same_refl _))
        (fmul_same p _ _ (p.same_refl _) hy)) h2,
      fsub_same p _ _ (fmul_same p _ _ (p.same_refl _) (p.same_refl _)) (fmul_same p _ _ (p.same_refl _) hy)⟩

/-- Draws change nothing but NaN bit patterns, over any list of samples. -/
theorem filterList_same (p : Precision) (d d' : Nat → Draws) (c : Coeffs) (h h' : History) (n n' : Nat) (xs : List FWord)
    (hh : h.same p h') :
    (filterList p d c h n xs).1.same p (filterList p d' c h' n' xs).1 ∧
      List.Forall₂ p.same (filterList p d c h n xs).2 (filterList p d' c h' n' xs).2 := by
  induction xs generalizing h h' n n' with
  | nil => exact ⟨hh, List.Forall₂.nil⟩
  | cons x xs ih =>
    simp only [filterList]
    have hy := sectionOut_same p (d n) (d' n') c h h' x hh
    obtain ⟨h1, h2⟩ := ih _ _ (n + 1) (n' + 1) (sectionNext_same p (d n) (d' n') c h h' x _ _ hh hy)
    exact ⟨h1, List.Forall₂.cons hy h2⟩

end Sys2Proof.Machine
end

