-- ==== Sys2Proof/Laws/Codec.lean ====
section
/-! SUPPORT. What `decode` reads of a word, by the word's value: the low five bits select the row, and `encodeSet`'s fields come
back. -/

namespace Sys2Proof

theorem Cmd.getLsbD_eq (w : Cmd) (k : Nat) : w.getLsbD k = decide (w.toNat / 2 ^ k % 2 = 1) := by
  rw [BitVec.getLsbD, Nat.testBit_eq_decide_div_mod_eq]

/-- The type whose code is `n` (30_encoding.md R55), when `n < 8`. -/
theorem decodeType_eq (n : Nat) :
    decodeType (decide (n / 4 % 2 = 1)) (decide (n / 2 % 2 = 1)) (decide (n % 2 = 1)) =
      if n % 8 = 0 then .lowPass else if n % 8 = 1 then .highPass else if n % 8 = 2 then .bandPass
      else if n % 8 = 3 then .notch else if n % 8 = 4 then .peak else if n % 8 = 5 then .lowShelf
      else if n % 8 = 6 then .highShelf else .allPass := by
  have h4 : n / 4 % 2 = n % 8 / 4 := by omega
  have h2 : n / 2 % 2 = n % 8 / 2 % 2 := by omega
  have h1 : n % 2 = n % 8 % 2 := by omega
  have hlt : n % 8 < 8 := Nat.mod_lt _ (by decide)
  rw [h4, h2, h1]
  generalize n % 8 = m at hlt
  interval_cases m <;> rfl

theorem decode_prepare (p : Precision) (w : Cmd) (h : w.toNat % 4 = 0) :
    decode p w = .prepare (BitVec.ofNat 32 (cmdField w 5 32)) := by
  have h1 : ¬ w.toNat / 2 ^ 1 % 2 = 1 := by omega
  have h0 : ¬ w.toNat / 2 ^ 0 % 2 = 1 := by omega
  simp only [decode, Cmd.getLsbD_eq, h1, h0, decide_false]

theorem decode_process (p : Precision) (w : Cmd) (h : w.toNat % 4 = 2) :
    decode p w = .process (BitVec.ofNat 32 (cmdField w 5 32)) (BitVec.ofNat 32 (cmdField w 37 32)) := by
  have h1 : w.toNat / 2 ^ 1 % 2 = 1 := by omega
  have h0 : ¬ w.toNat / 2 ^ 0 % 2 = 1 := by omega
  simp only [decode, Cmd.getLsbD_eq, h1, h0, decide_false, decide_true]

theorem decode_reset (p : Precision) (w : Cmd) (h : w.toNat % 4 = 3) : decode p w = .reset := by
  have h1 : w.toNat / 2 ^ 1 % 2 = 1 := by omega
  have h0 : w.toNat / 2 ^ 0 % 2 = 1 := by omega
  simp only [decode, Cmd.getLsbD_eq, h1, h0, decide_true]

theorem decode_set (p : Precision) (w : Cmd) (h : w.toNat % 4 = 1) :
    decode p w = setInstr
      (decodeType (decide (w.toNat / 4 / 4 % 2 = 1)) (decide (w.toNat / 4 / 2 % 2 = 1)) (decide (w.toNat / 4 % 2 = 1)))
      (BitVec.ofNat 64 (cmdField w 5 p.width))
      (BitVec.ofNat 64 (cmdField w (5 + p.width) p.width))
      (BitVec.ofNat 64 (cmdField w (5 + 2 * p.width) p.width)) := by
  have h1 : ¬ w.toNat / 2 ^ 1 % 2 = 1 := by omega
  have h0 : w.toNat / 2 ^ 0 % 2 = 1 := by omega
  have e4 : w.toNat / 2 ^ 4 = w.toNat / 4 / 4 := by omega
  have e3 : w.toNat / 2 ^ 3 = w.toNat / 4 / 2 := by omega
  have e2 : w.toNat / 2 ^ 2 = w.toNat / 4 := by omega
  simp only [decode, Cmd.getLsbD_eq, h1, h0, decide_true, decide_false, e4, e3, e2]

/-- Outside SET, `op` is not 1 (30_encoding.md R56). -/
theorem filterType_decode_eq_none (p : Precision) (w : Cmd) : (decode p w).filterType = none ↔ w.toNat % 4 ≠ 1 := by
  have hlt : w.toNat % 4 < 4 := Nat.mod_lt _ (by decide)
  have hset : ∀ t f q g, (setInstr t f q g).filterType = some t := fun t f q g => by cases t <;> rfl
  rcases (by omega : w.toNat % 4 = 0 ∨ w.toNat % 4 = 1 ∨ w.toNat % 4 = 2 ∨ w.toNat % 4 = 3) with h | h | h | h
  · simp [decode_prepare p w h, Instr.filterType, h]
  · simp [decode_set p w h, hset, h]
  · simp [decode_process p w h, Instr.filterType, h]
  · simp [decode_reset p w h, Instr.filterType, h]

/-- The value of a SET's packed word (30_encoding.md R59). -/
theorem encodeSet_toNat (p : Precision) (ty : Nat) (f q g : FWord) (hty : ty < 8) :
    (encodeSet p ty f q g).toNat =
      ((g.toNat % 2 ^ p.width * 2 ^ p.width + q.toNat % 2 ^ p.width) * 2 ^ p.width + f.toNat % 2 ^ p.width) * 32 +
        (ty * 4 + 1) := by
  cases p <;>
    simp only [encodeSet, header, Precision.cut, Precision.width, BitVec.toNat_ofNat, Nat.reducePow] <;> omega

theorem encodeSet_lt (p : Precision) (ty : Nat) (f q g : FWord) (hty : ty < 8) :
    (encodeSet p ty f q g).toNat < 2 ^ (5 + 3 * p.width) := by
  rw [encodeSet_toNat p ty f q g hty]
  cases p <;> simp only [Precision.width, Nat.reducePow, Nat.reduceMul, Nat.reduceAdd] <;> omega

/-- The three operand fields of a SET's packed word come back. -/
theorem encodeSet_fields (p : Precision) (ty : Nat) (f q g : FWord) (hty : ty < 8)
    (hf : p.fits f = true) (hq : p.fits q = true) (hg : p.fits g = true) :
    BitVec.ofNat 64 (cmdField (encodeSet p ty f q g) 5 p.width) = f ∧
      BitVec.ofNat 64 (cmdField (encodeSet p ty f q g) (5 + p.width) p.width) = q ∧
      BitVec.ofNat 64 (cmdField (encodeSet p ty f q g) (5 + 2 * p.width) p.width) = g := by
  rw [p.fits_iff] at hf hq hg
  have hf' := f.isLt
  have hq' := q.isLt
  have hg' := g.isLt
  refine ⟨?_, ?_, ?_⟩ <;> apply BitVec.eq_of_toNat_eq <;>
    simp only [cmdField, BitVec.toNat_ofNat, encodeSet_toNat p ty f q g hty] <;>
    cases p <;> simp only [Precision.width, Nat.reducePow, Nat.reduceMul, Nat.reduceAdd] at * <;> omega

/-- The row of a SET's packed word. -/
theorem decode_encodeSet (p : Precision) (ty : Nat) (f q g : FWord) (hty : ty < 8)
    (hf : p.fits f = true) (hq : p.fits q = true) (hg : p.fits g = true) :
    decode p (encodeSet p ty f q g) =
      setInstr (decodeType (decide (ty / 4 % 2 = 1)) (decide (ty / 2 % 2 = 1)) (decide (ty % 2 = 1))) f q g := by
  have hn := encodeSet_toNat p ty f q g hty
  have h4 : (encodeSet p ty f q g).toNat % 4 = 1 := by omega
  have hr : (encodeSet p ty f q g).toNat / 4 % 8 = ty := by omega
  obtain ⟨h1, h2, h3⟩ := encodeSet_fields p ty f q g hty hf hq hg
  rw [decode_set p _ h4, h1, h2, h3]
  have e1 : (encodeSet p ty f q g).toNat / 4 % 2 = ty % 2 := by omega
  have e2 : (encodeSet p ty f q g).toNat / 4 / 2 % 2 = ty / 2 % 2 := by omega
  have e3 : (encodeSet p ty f q g).toNat / 4 / 4 % 2 = ty / 4 % 2 := by omega
  rw [e1, e2, e3]

end Sys2Proof
end

