-- ==== Sys2Proof/Laws/Engine.lean ====
section
/-! SUPPORT. The engine: its three checks are those of the rules over real numbers, and draws change nothing in its results but
NaN bit patterns. -/

namespace Sys2Proof

theorem Precision.real_pos_iff (p : Precision) (w : FWord) : 0 < p.real w ↔ 0 < p.scaledInt w := by
  unfold Precision.real
  rw [div_pos_iff_of_pos_right (by positivity)]
  exact_mod_cast Iff.rfl

theorem Precision.positive_iff (p : Precision) {w : FWord} (h : p.finite w = true) :
    p.positive w = true ↔ 0 < p.real w := by
  have hz := p.scaled_eq_zero_iff w
  obtain ⟨hn, _⟩ := (p.finite_iff w).mp h
  rw [p.real_pos_iff]
  simp only [Precision.positive, hn, Precision.scaledInt]
  cases hs : p.signBit w <;> cases hw : p.isZero w <;> simp_all
  omega

theorem Precision.belowNyquist_iff (p : Precision) (sr : Rate) (w : FWord) :
    p.belowNyquist sr w = true ↔ 2 * p.real w < (sr.toNat : ℚ) := by
  simp only [Precision.belowNyquist, Precision.real, decide_eq_true_eq]
  rw [← mul_div_assoc, div_lt_iff₀ (by positivity)]
  exact_mod_cast Iff.rfl

/-- The engine's tests are the conditions of 40_coefficient_engine.md R76 to R78, over real numbers. -/
theorem Machine.validOperands_iff (p : Precision) (sr : Rate) (freq q gain : FWord) :
    Machine.validOperands p sr freq q gain = true ↔ Accepted p sr freq q gain := by
  simp only [Machine.validOperands, Accepted, Bool.and_eq_true, p.belowNyquist_iff]
  constructor
  · rintro ⟨⟨⟨⟨⟨hf, hq⟩, hg⟩, pf⟩, hn⟩, pq⟩
    exact ⟨hf, hq, hg, (p.positive_iff hf).mp pf, hn, (p.positive_iff hq).mp pq⟩
  · rintro ⟨hf, hq, hg, pf, hn, pq⟩
    exact ⟨⟨⟨⟨⟨hf, hq⟩, hg⟩, (p.positive_iff hf).mpr pf⟩, hn⟩, (p.positive_iff hq).mpr pq⟩

/-! ### What finite operands give -/

theorem Precision.isNaN_of_finite (p : Precision) {w : FWord} (h : p.finite w = true) : p.isNaN w = false :=
  ((p.finite_iff w).mp h).1

/-- A product of finite words is no NaN. -/
theorem fmul_not_nan (p : Precision) (n a b : FWord) (ha : p.finite a = true) (hb : p.finite b = true) :
    p.isNaN (fmul p n a b) = false := by
  obtain ⟨ha1, ha2⟩ := (p.finite_iff a).mp ha
  obtain ⟨hb1, hb2⟩ := (p.finite_iff b).mp hb
  simp only [fmul, ha1, ha2, hb1, hb2, Bool.or_self, Bool.false_eq_true, if_false]
  exact p.isNaN_mkWord _ _ (p.roundMag_le_infMag _ _)

/-- A number over a finite word that is no zero is no NaN. -/
theorem fdiv_not_nan (p : Precision) (n a b : FWord) (ha : p.isNaN a = false) (hb : p.finite b = true)
    (hz : p.isZero b = false) : p.isNaN (fdiv p n a b) = false := by
  obtain ⟨hb1, hb2⟩ := (p.finite_iff b).mp hb
  simp only [fdiv, ha, hb1, hb2, hz, Bool.or_self, Bool.false_eq_true, if_false]
  split
  · exact p.isNaN_mkWord _ _ le_rfl
  · exact p.isNaN_mkWord _ _ (p.roundMag_le_infMag _ _)

theorem cvt_magBits (p : Precision) (n : Nat) : p.magBits (cvt p n) = p.roundMag (n * 2 ^ p.scaleBits) 1 :=
  p.magBits_mkWord _ _ (p.roundMag_lt _ _)

/-- A whole number of `SRW` bits is far below the overflow bound (00_scope.md R14). -/
theorem cvt_finite (p : Precision) (n : Nat) (h : n < 2 ^ 32) : p.finite (cvt p n) = true := by
  have hlt : n * 2 ^ p.scaleBits < p.overflowUnits * 1 := by
    have hb : 2 ^ 32 * 2 ^ p.scaleBits ≤ p.overflowUnits * 1 := by cases p <;> decide +kernel
    exact lt_of_lt_of_le (Nat.mul_lt_mul_of_pos_right h (by positivity)) hb
  simp only [Precision.finite, cvt_magBits, decide_eq_true_eq]
  exact (p.roundMag_nearest _ 1 Nat.one_pos hlt).1

/-- A whole number that is not 0 does not round to a zero. -/
theorem cvt_not_zero (p : Precision) (n : Nat) (h : n < 2 ^ 32) (h0 : n ≠ 0) : p.isZero (cvt p n) = false := by
  have hlt : n * 2 ^ p.scaleBits < p.overflowUnits * 1 := by
    have hb : 2 ^ 32 * 2 ^ p.scaleBits ≤ p.overflowUnits * 1 := by cases p <;> decide +kernel
    exact lt_of_lt_of_le (Nat.mul_lt_mul_of_pos_right h (by positivity)) hb
  simp only [Precision.isZero, cvt_magBits, beq_eq_false_iff_ne, ne_eq]
  intro hz
  have hnear := ((p.roundMag_nearest _ 1 Nat.one_pos hlt).2 1).1
  have hv0 : p.magValue 0 = 0 := by cases p <;> decide
  have hv1 : p.magValue 1 = 1 := by cases p <;> decide
  rw [hz, hv0, hv1] at hnear
  have hpos : 0 < n * 2 ^ p.scaleBits := Nat.mul_pos (Nat.pos_of_ne_zero h0) (by positivity)
  generalize n * 2 ^ p.scaleBits = m at *
  rcases abs_cases ((0 : ℤ) * 1 - m) with ⟨h1, _⟩ | ⟨h1, _⟩ <;>
    rcases abs_cases ((1 : ℤ) * 1 - m) with ⟨h2, _⟩ | ⟨h2, _⟩ <;>
    push_cast at * <;> omega

namespace Machine

/-! ### Draws change NaN bit patterns only -/

theorem Coeffs.same_refl (p : Precision) (c : Coeffs) : c.same p c :=
  ⟨p.same_refl _, p.same_refl _, p.same_refl _, p.same_refl _, p.same_refl _⟩

/-- `w0` of accepted operands is no NaN: its division is by a finite rate that is no zero. -/
theorem angularFrequency_not_nan (p : Precision) (d : Draws) (sr : Rate) (freq : FWord)
    (hf : p.finite freq = true) (hsr : sr.toNat ≠ 0) : p.isNaN (angularFrequency p d sr freq) = false := by
  have h2pi : p.finite (fmul p (d 0) (cvt p 2) (Config.piWord p)) = true := by
    have hnan : (p.isNaN (cvt p 2) || p.isNaN (Config.piWord p)) = false := by cases p <;> decide +kernel
    have hinf : (p.isInf (cvt p 2) || p.isInf (Config.piWord p)) = false := by cases p <;> decide +kernel
    simp only [fmul, hnan, hinf, Bool.false_eq_true, if_false]
    cases p <;> decide +kernel
  exact fdiv_not_nan p _ _ _ (fmul_not_nan p _ _ _ h2pi hf) (cvt_finite p _ sr.isLt) (cvt_not_zero p _ sr.isLt hsr)

theorem angularFrequency_same (p : Precision) (d d' : Draws) (sr : Rate) (freq : FWord) :
    p.same (angularFrequency p d sr freq) (angularFrequency p d' sr freq) :=
  fdiv_same p _ _ (fmul_same p _ _ (fmul_same p _ _ (p.same_refl _) (p.same_refl _)) (p.same_refl _)) (p.same_refl _)

theorem amplitude_eq (p : Precision) (d d' : Draws) (gain : FWord) (hg : p.finite gain = true) :
    amplitude p d gain = amplitude p d' gain := by
  have h40 : p.finite (cvt p 40) = true := cvt_finite p 40 (by decide)
  have hz : p.isZero (cvt p 40) = false := cvt_not_zero p 40 (by decide) (by decide)
  have hn := fdiv_not_nan p (d 5) gain (cvt p 40) (p.isNaN_of_finite hg) h40 hz
  have := p.eq_of_same (fdiv_same p (d 5) (d' 5) (p.same_refl gain) (p.same_refl (cvt p 40))) hn
  simp only [amplitude, this]

/-- Six raw values of the same value each, NaN bit patterns apart. -/
def Raw.same (p : Precision) (r t : Raw) : Prop :=
  p.same r.b0 t.b0 ∧ p.same r.b1 t.b1 ∧ p.same r.b2 t.b2 ∧ p.same r.a0 t.a0 ∧ p.same r.a1 t.a1 ∧ p.same r.a2 t.a2

theorem normalise_same (p : Precision) (d d' : Draws) {r t : Raw} (h : r.same p t) :
    (normalise p d r).same p (normalise p d' t) := by
  obtain ⟨h0, h1, h2, h3, h4, h5⟩ := h
  exact ⟨fdiv_same p _ _ h0 h3, fdiv_same p _ _ h1 h3, fdiv_same p _ _ h2 h3, fdiv_same p _ _ h4 h3, fdiv_same p _ _ h5 h3⟩

theorem commonA0_same (p : Precision) (d d' : Draws) {al al' : FWord} (h : p.same al al') :
    p.same (commonA0 p d al) (commonA0 p d' al') := fadd_same p _ _ (p.same_refl _) h

theorem commonA1_same (p : Precision) (d d' : Draws) (cs : FWord) : p.same (commonA1 p d cs) (commonA1 p d' cs) :=
  fmul_same p _ _ (p.same_refl _) (p.same_refl _)

theorem commonA2_same (p : Precision) (d d' : Draws) {al al' : FWord} (h : p.same al al') :
    p.same (commonA2 p d al) (commonA2 p d' al') := fsub_same p _ _ (p.same_refl _) h

theorem rawLowPass_same (p : Precision) (d d' : Draws) (cs : FWord) {al al' : FWord} (h : p.same al al') :
    (rawLowPass p d cs al).same p (rawLowPass p d' cs al') := by
  simp only [rawLowPass, Raw.same]
  have omc := fsub_same p (d 9) (d' 9) (p.same_refl (cvt p 1)) (p.same_refl cs)
  have hh := fdiv_same p (d 10) (d' 10) omc (p.same_refl (cvt p 2))
  exact ⟨hh, omc, hh, commonA0_same p d d' h, commonA1_same p d d' cs, commonA2_same p d d' h⟩

theorem rawHighPass_same (p : Precision) (d d' : Draws) (cs : FWord) {al al' : FWord} (h : p.same al al') :
    (rawHighPass p d cs al).same p (rawHighPass p d' cs al') := by
  simp only [rawHighPass, Raw.same]
  have opc := fadd_same p (d 9) (d' 9) (p.same_refl (cvt p 1)) (p.same_refl cs)
  have hh := fdiv_same p (d 10) (d' 10) opc (p.same_refl (cvt p 2))
  exact ⟨hh, fneg_same p opc, hh, commonA0_same p d d' h, commonA1_same p d d' cs, commonA2_same p d d' h⟩

theorem rawBandPass_same (p : Precision) (d d' : Draws) (form : BandpassForm) (sn cs : FWord) {al al' : FWord}
    (h : p.same al al') : (rawBandPass p d form sn cs al).same p (rawBandPass p d' form sn cs al') := by
  cases form with
  | peak0db =>
    simp only [rawBandPass, Raw.same]
    exact ⟨h, p.same_refl _, fneg_same p h, commonA0_same p d d' h, commonA1_same p d d' cs, commonA2_same p d d' h⟩
  | skirt =>
    simp only [rawBandPass, Raw.same]
    have hh := fdiv_same p (d 9) (d' 9) (p.same_refl sn) (p.same_refl (cvt p 2))
    exact ⟨hh, p.same_refl _, fneg_same p hh, commonA0_same p d d' h, commonA1_same p d d' cs, commonA2_same p d d' h⟩

theorem rawNotch_same (p : Precision) (d d' : Draws) (cs : FWord) {al al' : FWord} (h : p.same al al') :
    (rawNotch p d cs al).same p (rawNotch p d' cs al') := by
  simp only [rawNotch, Raw.same]
  exact ⟨p.same_refl _, commonA1_same p d d' cs, p.same_refl _, commonA0_same p d d' h, commonA1_same p d d' cs,
    commonA2_same p d d' h⟩

theorem rawPeak_same (p : Precision) (d d' : Draws) (a cs : FWord) {al al' : FWord} (h : p.same al al') :
    (rawPeak p d a cs al).same p (rawPeak p d' a cs al') := by
  simp only [rawPeak, Raw.same]
  have aA := fmul_same p (d 9) (d' 9) h (p.same_refl a)
  have ad := fdiv_same p (d 10) (d' 10) h (p.same_refl a)
  have b1 := fmul_same p (d 11) (d' 11) (p.same_refl (fneg p (cvt p 2))) (p.same_refl cs)
  exact ⟨fadd_same p _ _ (p.same_refl _) aA, b1, fsub_same p _ _ (p.same_refl _) aA, fadd_same p _ _ (p.same_refl _) ad, b1,
    fsub_same p _ _ (p.same_refl _) ad⟩

/-- Shelf terms of the same value each, NaN bit patterns apart. -/
theorem shelfTerms_same (p : Precision) (d d' : Draws) (a cs : FWord) {al al' : FWord} (h : p.same al al') :
    p.same (shelfTerms p d a cs al).ap1 (shelfTerms p d' a cs al').ap1 ∧
      p.same (shelfTerms p d a cs al).am1 (shelfTerms p d' a cs al').am1 ∧
      p.same (shelfTerms p d a cs al).ap1c (shelfTerms p d' a cs al').ap1c ∧
      p.same (shelfTerms p d a cs al).am1c (shelfTerms p d' a cs al').am1c ∧
      p.same (shelfTerms p d a cs al).k (shelfTerms p d' a cs al').k := by
  simp only [shelfTerms]
  have r := fsqrt_same p (d 9) (d' 9) (p.same_refl a)
  have ap1 := fadd_same p (d 10) (d' 10) (p.same_refl a) (p.same_refl (cvt p 1))
  have am1 := fsub_same p (d 11) (d' 11) (p.same_refl a) (p.same_refl (cvt p 1))
  exact ⟨ap1, am1, fmul_same p _ _ ap1 (p.same_refl _), fmul_same p _ _ am1 (p.same_refl _),
    fmul_same p _ _ (fmul_same p _ _ (p.same_refl _) r) h⟩

theorem rawLowShelf_same (p : Precision) (d d' : Draws) (a cs : FWord) {al al' : FWord} (h : p.same al al') :
    (rawLowShelf p d a cs al).same p (rawLowShelf p d' a cs al') := by
  simp only [rawLowShelf, Raw.same]
  obtain ⟨ap1, am1, ap1c, am1c, k⟩ := shelfTerms_same p d d' a cs h
  have u := fsub_same p (d 16) (d' 16) ap1 am1c
  have v := fadd_same p (d 17) (d' 17) ap1 am1c
  exact ⟨fmul_same p _ _ (p.same_refl _) (fadd_same p _ _ u k),
    fmul_same p _ _ (fmul_same p _ _ (p.same_refl _) (p.same_refl _)) (fsub_same p _ _ am1 ap1c),
    fmul_same p _ _ (p.same_refl _) (fsub_same p _ _ u k), fadd_same p _ _ v k,
    fmul_same p _ _ (p.same_refl _) (fadd_same p _ _ am1 ap1c), fsub_same p _ _ v k⟩

theorem rawHighShelf_same (p : Precision) (d d' : Draws) (a cs : FWord) {al al' : FWord} (h : p.same al al') :
    (rawHighShelf p d a cs al).same p (rawHighShelf p d' a cs al') := by
  simp only [rawHighShelf, Raw.same]
  obtain ⟨ap1, am1, ap1c, am1c, k⟩ := shelfTerms_same p d d' a cs h
  have u := fadd_same p (d 16) (d' 16) ap1 am1c
  have v := fsub_same p (d 17) (d' 17) ap1 am1c
  exact ⟨fmul_same p _ _ (p.same_refl _) (fadd_same p _ _ u k),
    fmul_same p _ _ (fmul_same p _ _ (p.same_refl _) (p.same_refl _)) (fadd_same p _ _ am1 ap1c),
    fmul_same p _ _ (p.same_refl _) (fsub_same p _ _ u k), fadd_same p _ _ v k,
    fmul_same p _ _ (p.same_refl _) (fsub_same p _ _ am1 ap1c), fsub_same p _ _ v k⟩

theorem rawAllPass_same (p : Precision) (d d' : Draws) (cs : FWord) {al al' : FWord} (h : p.same al al') :
    (rawAllPass p d cs al).same p (rawAllPass p d' cs al') := by
  simp only [rawAllPass, Raw.same]
  exact ⟨commonA2_same p d d' h, commonA1_same p d d' cs, commonA0_same p d d' h, commonA0_same p d d' h, commonA1_same p d d' cs,
    commonA2_same p d d' h⟩

theorem bandwidth_same (p : Precision) (d d' : Draws) (sn q : FWord) : p.same (bandwidth p d sn q) (bandwidth p d' sn q) :=
  fdiv_same p _ _ (p.same_refl _) (fmul_same p _ _ (p.same_refl _) (p.same_refl _))

/-- The draws of accepted operands reach neither `fsin`, `fcos` nor `fpow`, so they change NaN bit patterns of the results
only. -/
theorem rawValues_same (c : Params) (d d' : Draws) (t : FilterType) (sn cs gain : FWord) {al al' : FWord}
    (h : c.precision.same al al') (hg : c.precision.finite gain = true) :
    (rawValues c d t sn cs al gain).same c.precision (rawValues c d' t sn cs al' gain) := by
  have ha := amplitude_eq c.precision d d' gain hg
  cases t <;> simp only [rawValues]
  · exact rawLowPass_same _ d d' cs h
  · exact rawHighPass_same _ d d' cs h
  · exact rawBandPass_same _ d d' _ sn cs h
  · exact rawNotch_same _ d d' cs h
  · rw [ha]; exact rawPeak_same _ d d' _ cs h
  · rw [ha]; exact rawLowShelf_same _ d d' _ cs h
  · rw [ha]; exact rawHighShelf_same _ d d' _ cs h
  · exact rawAllPass_same _ d d' cs h

end Machine

end Sys2Proof
end

