-- ==== Sys2Proof/Laws/Exec.lean ====
section
/-! SUPPORT. What each meaning can answer, said once: the shared operations, each command, and `exec` as a whole. -/

namespace Sys2Proof.Machine

theorem State.raise_def (e : Status) (s : State) : s.raise e = .next { s with response := some ⟨e, []⟩ } := rfl

/-- The state after a successful PREPARE (41_configuration_commands.md R105). -/
theorem execPrepare_ok (rate : Rate) (s : State) (h : rate ≠ 0#32) :
    execPrepare rate s = .next { s with
      sr := rate
      history := History.zero s.params.sectionForm
      prepared := true
      configured := s.configuredAfterPrepare
      response := some ⟨.ok, []⟩ } := by
  simp [execPrepare, h, State.zeroHistory, State.answer, State.configuredAfterPrepare]

theorem execPrepare_zero (s : State) :
    execPrepare 0#32 s = .next { s with response := some ⟨.invalidParameter, []⟩ } := rfl

theorem execSet_unprepared (t : FilterType) (f q g : FWord) (s : State) (h : s.prepared = false) :
    execSet t f q g s = .next { s with response := some ⟨.notPrepared, []⟩ } := by
  simp [execSet, h, State.raise_def]

theorem execSet_invalid (t : FilterType) (f q g : FWord) (s : State) (h : s.prepared = true)
    (hv : validOperands s.params.precision s.sr f q g = false) :
    execSet t f q g s = .next { s with response := some ⟨.invalidParameter, []⟩ } := by
  simp [execSet, h, derive, hv, State.raise_def]

theorem execSet_ok (t : FilterType) (f q g : FWord) (s : State) (h : s.prepared = true)
    (hv : validOperands s.params.precision s.sr f q g = true) :
    execSet t f q g s = .next { s with
      coeffs := cookbook s.params (Config.nanBits s.draws) t s.sr f q g
      configured := true
      draws := s.draws + 1
      response := some ⟨.ok, []⟩ } := by
  simp [execSet, h, derive, hv, State.answer]

theorem execReset_eq (s : State) :
    execReset s = .next { s with
      history := History.zero s.params.sectionForm
      response := some ⟨.ok, []⟩ } := rfl

theorem execProcess_unprepared (a b : Len) (s : State) (h : s.prepared = false) :
    execProcess a b s = .next { s with response := some ⟨.notPrepared, []⟩ } := by
  simp [execProcess, h, State.raise_def]

theorem execProcess_unconfigured (a b : Len) (s : State) (h : s.prepared = true) (hc : s.configured = false) :
    execProcess a b s = .next { s with response := some ⟨.notConfigured, []⟩ } := by
  simp [execProcess, h, hc, State.raise_def]

theorem execProcess_mismatch (a b : Len) (s : State) (h : s.prepared = true) (hc : s.configured = true) (hl : a ≠ b) :
    execProcess a b s = .next { s with response := some ⟨.lengthMismatch, []⟩ } := by
  simp [execProcess, h, hc, hl, State.raise_def]

theorem execProcess_ok (a : Len) (s : State) (h : s.prepared = true) (hc : s.configured = true)
    (hp : s.placement ≠ .partialOverlap ∨ a = 0#32) :
    execProcess a a s = .next ((burst a.toNat 0 s).1.answer (burst a.toNat 0 s).2) := by
  have : ¬ (s.placement = .partialOverlap ∧ a ≠ 0#32) := by tauto
  simp [execProcess, h, hc]
  tauto

theorem execProcess_overlap (a : Len) (s : State) (h : s.prepared = true) (hc : s.configured = true)
    (hp : s.placement = .partialOverlap) (ha : a ≠ 0#32) :
    execProcess a a s = .refused .partialOverlap := by
  simp [execProcess, h, hc, hp, ha]

/-- A SET row is `execSet` with its type (41_configuration_commands.md R108 to R115). -/
theorem exec_of_filterType (i : Instr) (t : FilterType) (h : i.filterType = some t) :
    ∃ f q g, i = setInstr t f q g ∧ ∀ s, exec i s = execSet t f q g s := by
  cases i <;> simp only [Instr.filterType, Option.some.injEq, reduceCtorEq] at h <;> subst h <;>
    exact ⟨_, _, _, rfl, fun _ => rfl⟩

@[simp] theorem filterType_setInstr (t : FilterType) (f q g : FWord) : (setInstr t f q g).filterType = some t := by
  cases t <;> rfl

@[simp] theorem exec_setInstr (t : FilterType) (f q g : FWord) (s : State) :
    exec (setInstr t f q g) s = execSet t f q g s := by
  cases t <;> rfl

/-- Everything a command can do: it fails with no effect but its status, or it is one of the four successes, or it is a
PROCESS over partially overlapping buffers. -/
theorem exec_cases (i : Instr) (s : State) :
    (∃ e, e ≠ .ok ∧ exec i s = .next { s with response := some ⟨e, []⟩ }) ∨
    (∃ rate, i = .prepare rate ∧ rate ≠ 0#32 ∧ exec i s = .next { s with
      sr := rate
      history := History.zero s.params.sectionForm
      prepared := true
      configured := s.configuredAfterPrepare
      response := some ⟨.ok, []⟩ }) ∨
    (∃ t f q g, i = setInstr t f q g ∧ s.prepared = true ∧ validOperands s.params.precision s.sr f q g = true ∧
      exec i s = .next { s with
        coeffs := cookbook s.params (Config.nanBits s.draws) t s.sr f q g
        configured := true
        draws := s.draws + 1
        response := some ⟨.ok, []⟩ }) ∨
    (∃ a, i = .process a a ∧ s.prepared = true ∧ s.configured = true ∧
      (s.placement ≠ .partialOverlap ∨ a = 0#32) ∧
      exec i s = .next ((burst a.toNat 0 s).1.answer (burst a.toNat 0 s).2)) ∨
    (i = .reset ∧ exec i s = .next { s with
      history := History.zero s.params.sectionForm
      response := some ⟨.ok, []⟩ }) ∨
    (∃ a, i = .process a a ∧ s.prepared = true ∧ s.configured = true ∧ s.placement = .partialOverlap ∧ a ≠ 0#32 ∧
      exec i s = .refused .partialOverlap) := by
  cases hi : i.filterType with
  | some t =>
    obtain ⟨f, q, g, rfl, hx⟩ := exec_of_filterType i t hi
    rw [hx]
    by_cases hp : s.prepared = true
    · by_cases hv : validOperands s.params.precision s.sr f q g = true
      · exact .inr (.inr (.inl ⟨t, f, q, g, rfl, hp, hv, execSet_ok _ _ _ _ _ hp hv⟩))
      · exact .inl ⟨.invalidParameter, by decide, execSet_invalid _ _ _ _ _ hp (Bool.not_eq_true _ ▸ hv)⟩
    · exact .inl ⟨.notPrepared, by decide, execSet_unprepared _ _ _ _ _ (Bool.not_eq_true _ ▸ hp)⟩
  | none =>
    cases i with
    | prepare rate =>
      by_cases h : rate = 0#32
      · subst h
        exact .inl ⟨.invalidParameter, by decide, execPrepare_zero s⟩
      · exact .inr (.inl ⟨rate, rfl, h, execPrepare_ok _ _ h⟩)
    | process a b =>
      by_cases hp : s.prepared = true
      · by_cases hc : s.configured = true
        · by_cases hl : a = b
          · subst hl
            by_cases ho : s.placement = .partialOverlap ∧ a ≠ 0#32
            · exact .inr (.inr (.inr (.inr (.inr ⟨a, rfl, hp, hc, ho.1, ho.2, execProcess_overlap a s hp hc ho.1 ho.2⟩))))
            · have ho' : s.placement ≠ .partialOverlap ∨ a = 0#32 := by tauto
              exact .inr (.inr (.inr (.inl ⟨a, rfl, hp, hc, ho', execProcess_ok a s hp hc ho'⟩)))
          · exact .inl ⟨.lengthMismatch, by decide, execProcess_mismatch a b s hp hc hl⟩
        · exact .inl ⟨.notConfigured, by decide, execProcess_unconfigured a b s hp (Bool.not_eq_true _ ▸ hc)⟩
      · exact .inl ⟨.notPrepared, by decide, execProcess_unprepared a b s (Bool.not_eq_true _ ▸ hp)⟩
    | reset => exact .inr (.inr (.inr (.inr (.inl ⟨rfl, execReset_eq s⟩))))
    | _ => simp [Instr.filterType] at hi

/-- The five kinds of state a command can lead to. -/
theorem exec_next_cases {i : Instr} {s t : State} (h : exec i s = .next t) :
    (∃ e, e ≠ .ok ∧ t = { s with response := some ⟨e, []⟩ }) ∨
    (∃ rate, i = .prepare rate ∧ rate ≠ 0#32 ∧ t = { s with
      sr := rate
      history := History.zero s.params.sectionForm
      prepared := true
      configured := s.configuredAfterPrepare
      response := some ⟨.ok, []⟩ }) ∨
    (∃ ty f q g, i = setInstr ty f q g ∧ s.prepared = true ∧ validOperands s.params.precision s.sr f q g = true ∧
      t = { s with
        coeffs := cookbook s.params (Config.nanBits s.draws) ty s.sr f q g
        configured := true
        draws := s.draws + 1
        response := some ⟨.ok, []⟩ }) ∨
    (∃ a, i = .process a a ∧ s.prepared = true ∧ s.configured = true ∧
      (s.placement ≠ .partialOverlap ∨ a = 0#32) ∧ t = (burst a.toNat 0 s).1.answer (burst a.toNat 0 s).2) ∨
    (i = .reset ∧ t = { s with
      history := History.zero s.params.sectionForm
      response := some ⟨.ok, []⟩ }) := by
  rcases exec_cases i s with ⟨e, he, hx⟩ | ⟨r, hi, hr, hx⟩ | ⟨ty, f, q, g, hi, hp, hv, hx⟩ | ⟨a, hi, hp, hc, ho, hx⟩ |
      ⟨hi, hx⟩ | ⟨_, _, _, _, _, _, hx⟩ <;>
    rw [h] at hx <;> simp only [Host.Outcome.next.injEq, reduceCtorEq] at hx
  · exact .inl ⟨e, he, hx⟩
  · exact .inr (.inl ⟨r, hi, hr, hx⟩)
  · exact .inr (.inr (.inl ⟨ty, f, q, g, hi, hp, hv, hx⟩))
  · exact .inr (.inr (.inr (.inl ⟨a, hi, hp, hc, ho, hx⟩)))
  · exact .inr (.inr (.inr (.inr ⟨hi, hx⟩)))

@[simp] theorem State.mode_eq_unprepared (s : State) : s.mode = .unprepared ↔ s.prepared = false := by
  unfold State.mode
  split <;> simp_all

@[simp] theorem State.mode_eq_configured (s : State) :
    s.mode = .configured ↔ s.prepared = true ∧ s.configured = true := by
  unfold State.mode
  split <;> simp_all

/-- Why a command that answers an error answers it, and that it changes nothing else (60_exceptions.md R141 to R144). -/
theorem exec_error_cases {i : Instr} {s t : State} {e : Status} (h : exec i s = .next t) (ht : t.status = some e)
    (he : e ≠ .ok) :
    t = { s with response := some ⟨e, []⟩ } ∧
      ((e = .notPrepared ∧ s.prepared = false ∧
          ((∃ ty f q g, i = setInstr ty f q g) ∨ ∃ a b, i = .process a b)) ∨
        (e = .notConfigured ∧ s.prepared = true ∧ s.configured = false ∧ ∃ a b, i = .process a b) ∨
        (e = .invalidParameter ∧
          (i = .prepare 0#32 ∨ ∃ ty f q g, i = setInstr ty f q g ∧ s.prepared = true ∧
            validOperands s.params.precision s.sr f q g = false)) ∨
        (e = .lengthMismatch ∧ s.prepared = true ∧ s.configured = true ∧ ∃ a b, i = .process a b ∧ a ≠ b)) := by
  have fails : ∀ e', t = { s with response := some ⟨e', []⟩ } → e' = e := by
    rintro e' rfl
    simpa [State.status] using ht
  have succeeds : ∀ (u : State) (ys : List FWord), t = u.answer ys → False := by
    rintro u ys rfl
    exact he (by simpa [State.status, State.answer] using ht.symm)
  cases hi : i.filterType with
  | some ty =>
    obtain ⟨f, q, g, rfl, hx⟩ := exec_of_filterType i ty hi
    rw [hx] at h
    by_cases hp : s.prepared = true
    · by_cases hv : validOperands s.params.precision s.sr f q g = true
      · rw [execSet_ok _ _ _ _ _ hp hv, Host.Outcome.next.injEq] at h
        exact (succeeds { t with response := none } [] (by rw [← h]; rfl)).elim
      · rw [Bool.not_eq_true] at hv
        rw [execSet_invalid _ _ _ _ _ hp hv, Host.Outcome.next.injEq] at h
        obtain rfl := fails _ h.symm
        exact ⟨h.symm, .inr (.inr (.inl ⟨rfl, .inr ⟨ty, f, q, g, rfl, hp, hv⟩⟩))⟩
    · rw [Bool.not_eq_true] at hp
      rw [execSet_unprepared _ _ _ _ _ hp, Host.Outcome.next.injEq] at h
      obtain rfl := fails _ h.symm
      exact ⟨h.symm, .inl ⟨rfl, hp, .inl ⟨ty, f, q, g, rfl⟩⟩⟩
  | none =>
    cases i with
    | prepare rate =>
      change execPrepare rate s = _ at h
      by_cases hr : rate = 0#32
      · subst hr
        rw [execPrepare_zero, Host.Outcome.next.injEq] at h
        obtain rfl := fails _ h.symm
        exact ⟨h.symm, .inr (.inr (.inl ⟨rfl, .inl rfl⟩))⟩
      · rw [execPrepare_ok _ _ hr, Host.Outcome.next.injEq] at h
        exact (succeeds { t with response := none } [] (by rw [← h]; rfl)).elim
    | process a b =>
      change execProcess a b s = _ at h
      by_cases hp : s.prepared = true
      · by_cases hc : s.configured = true
        · by_cases hl : a = b
          · subst hl
            by_cases ho : s.placement = .partialOverlap ∧ a ≠ 0#32
            · rw [execProcess_overlap a s hp hc ho.1 ho.2] at h
              cases h
            · rw [execProcess_ok a s hp hc (by tauto), Host.Outcome.next.injEq] at h
              exact (succeeds _ _ h.symm).elim
          · rw [execProcess_mismatch a b s hp hc hl, Host.Outcome.next.injEq] at h
            obtain rfl := fails _ h.symm
            exact ⟨h.symm, .inr (.inr (.inr ⟨rfl, hp, hc, a, b, rfl, hl⟩))⟩
        · rw [Bool.not_eq_true] at hc
          rw [execProcess_unconfigured a b s hp hc, Host.Outcome.next.injEq] at h
          obtain rfl := fails _ h.symm
          exact ⟨h.symm, .inr (.inl ⟨rfl, hp, hc, a, b, rfl⟩)⟩
      · rw [Bool.not_eq_true] at hp
        rw [execProcess_unprepared a b s hp, Host.Outcome.next.injEq] at h
        obtain rfl := fails _ h.symm
        exact ⟨h.symm, .inl ⟨rfl, hp, .inr ⟨a, b, rfl⟩⟩⟩
    | reset =>
      change execReset s = _ at h
      rw [execReset_eq, Host.Outcome.next.injEq] at h
      exact (succeeds { t with response := none } [] (by rw [← h]; rfl)).elim
    | _ => simp [Instr.filterType] at hi

/-- The three kinds of step. -/
theorem step_next_cases {s t : State} (h : step s = .next t) :
    (s.pending = [] ∧ t = s) ∨
    (∃ rest, s.pending = .rst :: rest ∧ t = s.assertRst rest) ∨
    (∃ c rest, s.pending = .command c :: rest ∧ exec (decode s.params.precision c.word) (s.accept c rest) = .next t) := by
  unfold step at h
  split at h
  · rename_i hp
    cases h
    exact .inl ⟨hp, rfl⟩
  · rename_i rest hp
    cases h
    exact .inr (.inl ⟨rest, hp, rfl⟩)
  · rename_i c rest hp
    exact .inr (.inr ⟨c, rest, hp, h⟩)

end Sys2Proof.Machine
end

