-- ==== Sys2Proof/Laws/PerInstr.lean ====
section
/-! SUPPORT. What holds of every command as syntax, one lemma per constructor: its packed word carries the fixed bits of its row in
spec/opcode_table.json, and none of the ignored ones. -/

namespace Sys2Proof.Laws

/-- A row's fixed bits: the mask that picks them and their value. -/
structure TableRow where
  mask : Nat
  pattern : Nat
  deriving DecidableEq, Repr

/-- The `mask` and `match` columns of spec/opcode_table.json. -/
def tableRow : Instr → TableRow
  | .prepare _ => ⟨0x03, 0x00⟩
  | .setLowPass _ _ _ => ⟨0x1f, 0x01⟩
  | .setHighPass _ _ _ => ⟨0x1f, 0x05⟩
  | .setBandPass _ _ _ => ⟨0x1f, 0x09⟩
  | .setNotch _ _ _ => ⟨0x1f, 0x0d⟩
  | .setPeak _ _ _ => ⟨0x1f, 0x11⟩
  | .setLowShelf _ _ _ => ⟨0x1f, 0x15⟩
  | .setHighShelf _ _ _ => ⟨0x1f, 0x19⟩
  | .setAllPass _ _ _ => ⟨0x1f, 0x1d⟩
  | .process _ _ => ⟨0x03, 0x02⟩
  | .reset => ⟨0x03, 0x03⟩

/-- The packed word has its row's fixed bits, and zeros in the other bits of the header (30_encoding.md R56, R69). -/
def TableHeader.Statement (i : Instr) : Prop :=
  ∀ p : Precision, (encode p i).toNat &&& (tableRow i).mask = (tableRow i).pattern ∧
    (encode p i).toNat &&& 0x1f = (tableRow i).pattern

theorem TableHeader.of_mod (n k : Nat) (h : n % 32 = k) : n &&& 0x1f = k ∧ n &&& 0x03 = k % 4 := by
  have h5 := Nat.and_two_pow_sub_one_eq_mod n 5
  have h2 := Nat.and_two_pow_sub_one_eq_mod n 2
  simp only [Nat.reducePow, Nat.reduceSub] at h5 h2
  omega

theorem TableHeader.set (p : Precision) (ty : Nat) (f q g : FWord) (hty : ty < 8) :
    (encodeSet p ty f q g).toNat &&& 0x1f = ty * 4 + 1 :=
  (TableHeader.of_mod _ (ty * 4 + 1) (by rw [encodeSet_toNat p ty f q g hty]; omega)).1

theorem TableHeader.prepare (rate : Rate) : TableHeader.Statement (.prepare rate) := fun _ =>
  (TableHeader.of_mod _ 0
    (by simp only [encode, header, BitVec.toNat_ofNat, Nat.reducePow]; omega)).symm

theorem TableHeader.setLowPass (freq q gain : FWord) : TableHeader.Statement (.setLowPass freq q gain) := fun p =>
  ⟨TableHeader.set p 0 freq q gain (by decide), TableHeader.set p 0 freq q gain (by decide)⟩

theorem TableHeader.setHighPass (freq q gain : FWord) : TableHeader.Statement (.setHighPass freq q gain) := fun p =>
  ⟨TableHeader.set p 1 freq q gain (by decide), TableHeader.set p 1 freq q gain (by decide)⟩

theorem TableHeader.setBandPass (freq q gain : FWord) : TableHeader.Statement (.setBandPass freq q gain) := fun p =>
  ⟨TableHeader.set p 2 freq q gain (by decide), TableHeader.set p 2 freq q gain (by decide)⟩

theorem TableHeader.setNotch (freq q gain : FWord) : TableHeader.Statement (.setNotch freq q gain) := fun p =>
  ⟨TableHeader.set p 3 freq q gain (by decide), TableHeader.set p 3 freq q gain (by decide)⟩

theorem TableHeader.setPeak (freq q gain : FWord) : TableHeader.Statement (.setPeak freq q gain) := fun p =>
  ⟨TableHeader.set p 4 freq q gain (by decide), TableHeader.set p 4 freq q gain (by decide)⟩

theorem TableHeader.setLowShelf (freq q gain : FWord) : TableHeader.Statement (.setLowShelf freq q gain) := fun p =>
  ⟨TableHeader.set p 5 freq q gain (by decide), TableHeader.set p 5 freq q gain (by decide)⟩

theorem TableHeader.setHighShelf (freq q gain : FWord) : TableHeader.Statement (.setHighShelf freq q gain) := fun p =>
  ⟨TableHeader.set p 6 freq q gain (by decide), TableHeader.set p 6 freq q gain (by decide)⟩

theorem TableHeader.setAllPass (freq q gain : FWord) : TableHeader.Statement (.setAllPass freq q gain) := fun p =>
  ⟨TableHeader.set p 7 freq q gain (by decide), TableHeader.set p 7 freq q gain (by decide)⟩

theorem TableHeader.process (inLen outLen : Len) : TableHeader.Statement (.process inLen outLen) := fun _ =>
  (TableHeader.of_mod _ 2
    (by simp only [encode, header, BitVec.toNat_ofNat, Nat.reducePow]; omega)).symm

theorem TableHeader.reset : TableHeader.Statement .reset := fun p => by cases p <;> decide

end Sys2Proof.Laws
end

