-- ==== Sys2Proof/Laws/Reals.lean ====
section
/-! SUPPORT. From rounding whole numbers of units to rounding real numbers: the words `roundMag` builds are correctly rounded
(00_scope.md R11). -/

namespace Sys2Proof

theorem Precision.real_eq (p : Precision) (w : FWord) :
    (p.real w : ℝ) = (if p.signBit w then -1 else 1) * (p.magValue (p.magBits w) : ℝ) / 2 ^ p.scaleBits := by
  simp only [Precision.real, Precision.scaledInt, Precision.scaled]
  split <;> push_cast <;> ring

theorem Precision.overflowBound_eq (p : Precision) :
    (p.overflowBound : ℝ) = (p.overflowUnits : ℝ) / 2 ^ p.scaleBits := by
  have h1 : 1 ≤ 2 ^ (p.fracBits + 2) := Nat.one_le_two_pow
  simp only [Precision.overflowBound, Precision.overflowUnits]
  push_cast [h1]
  ring

theorem Precision.finite_mkWord (p : Precision) (s : Bool) (mag : Nat) (h : mag < p.infMag) :
    p.finite (p.mkWord s mag) = true := by
  simp only [Precision.finite, p.magBits_mkWord s mag (h.trans p.infMag_lt), decide_eq_true_eq]
  exact h

/-- Two numbers on the same side of 0 are as far apart as their magnitudes, two on opposite sides at least as far as the
magnitude of either. -/
theorem abs_signed_sub (b : Bool) (u v : ℝ) : |(if b then -1 else 1) * u - (if b then -1 else 1) * v| = |u - v| := by
  cases b
  · simp
  · rw [if_pos rfl, show -1 * u - -1 * v = -(u - v) by ring, abs_neg]

theorem abs_opposite_sub (b : Bool) (u v : ℝ) (hu : 0 ≤ u) (hv : 0 ≤ v) :
    |(if !b then -1 else 1) * u - (if b then -1 else 1) * v| = u + v := by
  cases b <;> simp only [Bool.not_true, Bool.not_false, Bool.false_eq_true, if_true, if_false]
  · rw [show -1 * u - 1 * v = -(u + v) by ring, abs_neg, abs_of_nonneg (by linarith)]
  · rw [show 1 * u - -1 * v = u + v by ring, abs_of_nonneg (by linarith)]

/-- A magnitude `m` that no finite magnitude is nearer to `y` than, and that is even at a tie, with the sign of the number, is that
number rounded once. Magnitudes count units of `2 ^ (-scaleBits)`. -/
theorem Precision.roundsTo_of_nearest (p : Precision) (s : Bool) (m : Nat) (y : ℝ) (hy : 0 ≤ y) (hm : m < p.infMag)
    (hb : y < p.overflowUnits)
    (hnear : ∀ v, |(p.magValue m : ℝ) - y| ≤ |(p.magValue v : ℝ) - y| ∧
      (|(p.magValue m : ℝ) - y| = |(p.magValue v : ℝ) - y| → p.magValue v ≠ p.magValue m → m % 2 = 0)) :
    p.RoundsTo ((if s then -1 else 1) * y / 2 ^ p.scaleBits) (p.mkWord s m) := by
  have hS : (0 : ℝ) < 2 ^ p.scaleBits := by positivity
  have hw := hm.trans p.infMag_lt
  have hmag := p.magBits_mkWord s m hw
  have hsign := p.signBit_mkWord s m hw
  have h0 : p.magValue 0 = 0 := by cases p <;> decide
  have hval : (p.real (p.mkWord s m) : ℝ) = (if s then -1 else 1) * (p.magValue m : ℝ) / 2 ^ p.scaleBits := by
    rw [p.real_eq, hmag, hsign]
  have hdist : |(p.real (p.mkWord s m) : ℝ) - (if s then -1 else 1) * y / 2 ^ p.scaleBits| =
      |(p.magValue m : ℝ) - y| / 2 ^ p.scaleBits := by
    rw [hval, ← sub_div, abs_div, abs_of_pos hS, abs_signed_sub]
  refine Or.inl ⟨?_, p.finite_mkWord s m hm, fun v _ => ?_⟩
  · rw [p.overflowBound_eq, abs_div, abs_of_pos hS, div_lt_div_iff_of_pos_right hS, abs_mul, abs_of_nonneg hy]
    cases s <;> simpa using hb
  · rw [hdist, hmag]
    by_cases hsv : p.signBit v = s
    · have hv : |(p.real v : ℝ) - (if s then -1 else 1) * y / 2 ^ p.scaleBits| =
          |(p.magValue (p.magBits v) : ℝ) - y| / 2 ^ p.scaleBits := by
        rw [p.real_eq, hsv, ← sub_div, abs_div, abs_of_pos hS, abs_signed_sub]
      rw [hv, div_le_div_iff_of_pos_right hS, div_left_inj' hS.ne']
      refine ⟨(hnear _).1, fun he hne => (hnear _).2 he fun hc => hne ?_⟩
      have : (p.real v : ℝ) = p.real (p.mkWord s m) := by rw [p.real_eq, hval, hsv, hc]
      exact_mod_cast this
    · have hsv' : p.signBit v = !s := by cases hq : p.signBit v <;> cases s <;> simp_all
      have hvn : (0 : ℝ) ≤ p.magValue (p.magBits v) := by positivity
      have hv : |(p.real v : ℝ) - (if s then -1 else 1) * y / 2 ^ p.scaleBits| =
          ((p.magValue (p.magBits v) : ℝ) + y) / 2 ^ p.scaleBits := by
        rw [p.real_eq, hsv', ← sub_div, abs_div, abs_of_pos hS, abs_opposite_sub s _ _ hvn hy]
      have hz := hnear 0
      rw [h0, Nat.cast_zero, zero_sub, abs_neg, abs_of_nonneg hy] at hz
      rw [hv, div_le_div_iff_of_pos_right hS, div_left_inj' hS.ne']
      refine ⟨by linarith [hz.1], fun he hne => hz.2 (by linarith [hz.1]) fun hc => hne ?_⟩
      have hv0 : (p.magValue (p.magBits v) : ℝ) = 0 := by linarith [hz.1]
      have hm0 : (p.magValue m : ℝ) = 0 := by rw [← hc, Nat.cast_zero]
      have : (p.real v : ℝ) = p.real (p.mkWord s m) := by rw [p.real_eq, hval, hv0, hm0, mul_zero, mul_zero]
      exact_mod_cast this

/-- What `mkWord` builds of `roundMag n d` is the signed quotient, rounded once. -/
theorem Precision.roundsTo_mkWord (p : Precision) (s : Bool) (n d : Nat) (hd : 0 < d) :
    p.RoundsTo ((if s then -1 else 1) * ((n : ℝ) / d) / 2 ^ p.scaleBits) (p.mkWord s (p.roundMag n d)) := by
  have hS : (0 : ℝ) < 2 ^ p.scaleBits := by positivity
  have hdR : (0 : ℝ) < d := by exact_mod_cast hd
  by_cases hlt : n < p.overflowUnits * d
  · obtain ⟨hfin, hnear⟩ := p.roundMag_nearest n d hd hlt
    have scale : ∀ v, |(p.magValue v : ℝ) - n / d| = ((|(p.magValue v : ℤ) * d - n| : ℤ) : ℝ) / d := by
      intro v
      push_cast
      rw [← abs_of_pos hdR, ← abs_div, abs_of_pos hdR]
      congr 1
      field_simp
    apply p.roundsTo_of_nearest s _ _ (by positivity) hfin
    · rw [div_lt_iff₀ hdR]
      exact_mod_cast hlt
    · intro v
      rw [scale, scale, div_le_div_iff_of_pos_right hdR, div_left_inj' hdR.ne']
      exact ⟨by exact_mod_cast (hnear v).1, fun he hne => (hnear v).2 (by exact_mod_cast he) hne⟩
  · have hge := not_lt.mp hlt
    have hq : (p.overflowUnits : ℝ) ≤ n / d := by
      rw [le_div_iff₀ hdR]
      exact_mod_cast hge
    have hpos : (0 : ℝ) < p.overflowUnits := by
      have : 0 < p.overflowUnits := by cases p <;> decide +kernel
      exact_mod_cast this
    refine Or.inr ⟨?_, ?_⟩
    · rw [p.overflowBound_eq, abs_div, abs_of_pos hS, div_le_div_iff_of_pos_right hS, abs_mul,
        abs_of_nonneg (hpos.le.trans hq)]
      cases s <;> simpa using hq
    · rw [p.roundMag_overflow n d hd hge, Precision.infWord]
      congr 1
      have hq' : (0 : ℝ) < (n / d) / 2 ^ p.scaleBits := div_pos (by linarith) hS
      cases s
      · simp only [Bool.false_eq_true, if_false, one_mul]
        exact (decide_eq_false (by linarith)).symm
      · simp only [if_true]
        exact (decide_eq_true (by rw [mul_div_assoc]; linarith)).symm

/-- What is built of a whole number of units is that number, rounded once. -/
theorem Precision.roundsTo_roundInt (p : Precision) (z : Bool) (v : Int) :
    p.RoundsTo ((v : ℝ) / 2 ^ p.scaleBits) (p.roundInt z v) := by
  by_cases h0 : v = 0
  · subst h0
    have h := p.roundsTo_mkWord z 0 1 Nat.one_pos
    have hr : p.roundMag 0 1 = 0 := by cases p <;> decide
    rw [hr] at h
    simpa [Precision.roundInt, Precision.zeroWord] using h
  · have h := p.roundsTo_mkWord (decide (v < 0)) v.natAbs 1 Nat.one_pos
    have hv : (v : ℝ) = (if decide (v < 0) = true then -1 else 1) * ((v.natAbs : ℝ) / (1 : ℕ)) := by
      rw [Nat.cast_natAbs]
      by_cases hneg : v < 0
      · simp [hneg, abs_of_neg hneg]
      · simp [hneg, abs_of_nonneg (not_lt.mp hneg)]
    rw [hv]
    simpa only [Precision.roundInt, h0, if_false] using h

/-- The real value of a finite word by its sign and its units. -/
theorem Precision.real_scaled (p : Precision) (w : FWord) :
    (p.real w : ℝ) = (if p.signBit w then -1 else 1) * (p.scaled w : ℝ) / 2 ^ p.scaleBits := p.real_eq w

/-- Magnitudes of more than `fracBits + 2` bits are even numbers of units. -/
theorem Precision.magValue_even (p : Precision) (v : Nat) (h : 2 ^ (p.fracBits + 2) ≤ p.magValue v) :
    p.magValue v % 2 = 0 := by
  unfold Precision.magValue at h ⊢
  simp only at h ⊢
  have hf : v % 2 ^ p.fracBits < 2 ^ p.fracBits := Nat.mod_lt _ (by positivity)
  have e2 : 2 ^ (p.fracBits + 2) = 4 * 2 ^ p.fracBits := by ring
  split at h
  · omega
  · rename_i he
    rw [if_neg he]
    obtain ⟨j, hj⟩ : ∃ j, v / 2 ^ p.fracBits - 1 = j := ⟨_, rfl⟩
    rw [hj] at h ⊢
    cases j with
    | zero =>
      simp at h
      omega
    | succ j =>
      rw [pow_succ, ← mul_assoc]
      omega

/-- Some magnitude lies within half of a large whole number `r`. -/
theorem Precision.exists_magValue_near (p : Precision) (r : Nat) (hr : 2 ^ (p.fracBits + 4) ≤ r) :
    ∃ w, |(p.magValue w : ℤ) * 2 - (2 * r + 1 : ℕ)| ≤ r + 1 := by
  have hv := p.magValue_encode (Nat.log2 r - p.fracBits) (2 ^ p.fracBits) (by omega) (.inr le_rfl)
  have h16 : 2 ^ (p.fracBits + 4) = 16 * 2 ^ p.fracBits := by ring
  have hpos : 0 < 2 ^ p.fracBits := by positivity
  have hr0 : r ≠ 0 := by omega
  have hl : p.fracBits ≤ Nat.log2 r := by
    by_contra hh
    have : r < 2 ^ p.fracBits := (Nat.log2_lt hr0).mp (by omega)
    omega
  have e : 2 ^ p.fracBits * 2 ^ (Nat.log2 r - p.fracBits) = 2 ^ Nat.log2 r := by
    rw [← pow_add]
    congr 1
    omega
  refine ⟨(Nat.log2 r - p.fracBits) * 2 ^ p.fracBits + 2 ^ p.fracBits, ?_⟩
  rw [hv, e]
  have b1 := Nat.log2_self_le hr0
  have b2 : r < 2 ^ (Nat.log2 r + 1) := Nat.lt_log2_self
  rw [pow_succ] at b2
  generalize 2 ^ Nat.log2 r = W at *
  push_cast
  rw [abs_le]
  constructor <;> omega

/-- Every number strictly between a large whole number `r` and `r + 1` rounds as `r + 1/2` does: no two neighbouring magnitudes have
their half way point in between. -/
theorem Precision.roundsTo_between (p : Precision) (r : Nat) (y : ℝ) (h1 : (r : ℝ) < y) (h2 : y < r + 1)
    (hr : 2 ^ (p.fracBits + 4) ≤ r) (ho : 2 * r + 1 < p.overflowUnits * 2) :
    p.RoundsTo (y / 2 ^ p.scaleBits) (p.mkWord false (p.roundMag (2 * r + 1) 2)) := by
  obtain ⟨hfin, hnear⟩ := p.roundMag_nearest (2 * r + 1) 2 (by decide) ho
  generalize p.roundMag (2 * r + 1) 2 = m at *
  rw [Nat.cast_ofNat] at hnear
  have hr0 : (0 : ℝ) ≤ r := by positivity
  have hbound : y < p.overflowUnits := by
    have : r + 1 ≤ p.overflowUnits := by omega
    have : ((r + 1 : ℕ) : ℝ) ≤ p.overflowUnits := by exact_mod_cast this
    push_cast at this
    linarith
  suffices h : ∀ v, |(p.magValue m : ℝ) - y| ≤ |(p.magValue v : ℝ) - y| ∧
      (|(p.magValue m : ℝ) - y| = |(p.magValue v : ℝ) - y| → p.magValue v ≠ p.magValue m → m % 2 = 0) by
    simpa using p.roundsTo_of_nearest false m y (by linarith) hfin hbound h
  obtain ⟨w, hw⟩ := p.exists_magValue_near r hr
  intro v
  have hv := hnear v
  have hw2 := (hnear w).1
  have hsum : p.magValue m + p.magValue v ≠ 2 * r + 1 := by
    intro hs
    have e4 : 2 ^ (p.fracBits + 4) = 4 * 2 ^ (p.fracBits + 2) := by ring
    have hme := p.magValue_even m
    have hve := p.magValue_even v
    generalize p.magValue m = M at *
    generalize p.magValue v = V at *
    generalize 2 ^ (p.fracBits + 2) = F at *
    have hd : |(M : ℤ) * 2 - (2 * r + 1 : ℕ)| ≤ r + 1 := le_trans hw2 hw
    rw [abs_le] at hd
    push_cast at hd
    by_cases hMF : F ≤ M
    · by_cases hVF : F ≤ V
      · have := hme hMF
        have := hve hVF
        omega
      · omega
    · omega
  have conv : ∀ u : ℕ, |(u : ℝ) - y| = if u ≤ r then y - u else u - y := by
    intro u
    split
    · rename_i h
      have : (u : ℝ) ≤ r := by exact_mod_cast h
      rw [abs_of_nonpos (by linarith)]
      ring
    · rename_i h
      have : ((r + 1 : ℕ) : ℝ) ≤ u := by exact_mod_cast not_le.mp h
      push_cast at this
      rw [abs_of_nonneg (by linarith)]
  have convz : ∀ u : ℕ, |(u : ℤ) * 2 - (2 * r + 1 : ℕ)| =
      if u ≤ r then (2 * r + 1 : ℤ) - 2 * u else 2 * u - (2 * r + 1) := by
    intro u
    push_cast
    split
    · rw [abs_of_nonpos (by omega)]
      ring
    · rw [abs_of_nonneg (by omega)]
      ring
  have hv1 := hv.1
  rw [convz, convz] at hv1
  rw [conv, conv]
  generalize p.magValue m = M at *
  generalize p.magValue v = V at *
  clear hv hw2 hw hnear conv convz ho hr
  by_cases hM : M ≤ r <;> by_cases hV : V ≤ r <;> simp only [hM, hV, if_true, if_false] at hv1 ⊢
  · have : (V : ℝ) ≤ M := by exact_mod_cast (by omega : V ≤ M)
    exact ⟨by linarith, fun he hne => absurd (by exact_mod_cast (by linarith : (V : ℝ) = M)) hne⟩
  · have : ((2 * r + 2 : ℕ) : ℝ) ≤ (M + V : ℕ) := by exact_mod_cast (by omega : 2 * r + 2 ≤ M + V)
    push_cast at this
    exact ⟨by linarith, fun he => by exfalso; linarith⟩
  · have : ((M + V : ℕ) : ℝ) ≤ (2 * r : ℕ) := by exact_mod_cast (by omega : M + V ≤ 2 * r)
    push_cast at this
    exact ⟨by linarith, fun he => by exfalso; linarith⟩
  · have : (M : ℝ) ≤ V := by exact_mod_cast (by omega : M ≤ V)
    exact ⟨by linarith, fun he hne => absurd (by exact_mod_cast (by linarith : (V : ℝ) = M)) hne⟩

end Sys2Proof
end

