-- ==== Sys2Proof/Tests/Slice0.lean ====
section
/-! SUPPORT. The model's own tests: ill-formed terms, words written out from the spec's layouts, vectors of 95_test_vectors.md (named
in each docstring: the expected words are the spec's), and a witness for the hypotheses of every statement that has any. -/

namespace Sys2Proof.Tests

open Sys2Proof.Machine

/-! ### Small states -/

/-- An instance of a precision and a form, with the normative `PREPARE_CLEARS_CONFIG`. -/
def instanceOf (p : Precision) (form : SectionForm) : Params := ⟨p, .peak0db, form, true⟩

/-- After `PREPARE 44100`. -/
def prepared (p : Precision) (form : SectionForm) : State :=
  { State.resetWith (instanceOf p form) with sr := 44100#32, prepared := true }

/-- A configured state with coefficients and a history set by hand, as the K vectors are (30_encoding.md R72). -/
def configured (p : Precision) (c : Coeffs) (h : History) (input : List FWord) : State :=
  { prepared p h.form with coeffs := c, history := h, configured := true, inBuf := input }

/-- What a command leaves; a stop leaves the state it met. -/
def after (i : Instr) (s : State) : State :=
  match exec i s with
  | .next t => t
  | .fault _ => s
  | .refused _ => s

/-- The samples a command answers with. -/
def samplesOf (i : Instr) (s : State) : Option (List FWord) :=
  match exec i s with
  | .next t => t.response.map Response.samples
  | .fault _ => none
  | .refused _ => none

/-- The draws of a test that makes no NaN. -/
def noDraws : Draws := fun _ => 0#64

/-- The coefficients of K1: `(0.5, 0.25, 0.125, -0.5, 0.25)`, binary64. -/
def k1Coeffs : Coeffs :=
  ⟨0x3FE0000000000000#64, 0x3FD0000000000000#64, 0x3FC0000000000000#64, 0xBFE0000000000000#64, 0x3FD0000000000000#64⟩

/-- A configured binary64 instance, both forms, with zero history. -/
def k1State (form : SectionForm) (input : List FWord) : State := configured .binary64 k1Coeffs (History.zero form) input

/-! ### WellFormed refuses operand words of the other precision -/

/-- One bit above the 32 of a binary32 word. -/
def wide : FWord := 0x100000000#64

theorem test_wf_lowPass : Instr.wf .binary32 (.setLowPass wide 0#64 0#64) = false ∧
    Instr.wf .binary32 (.setLowPass 0#64 wide 0#64) = false ∧ Instr.wf .binary32 (.setLowPass 0#64 0#64 wide) = false := by decide

theorem test_wf_highPass : Instr.wf .binary32 (.setHighPass wide 0#64 0#64) = false ∧
    Instr.wf .binary32 (.setHighPass 0#64 wide 0#64) = false ∧ Instr.wf .binary32 (.setHighPass 0#64 0#64 wide) = false := by decide

theorem test_wf_bandPass : Instr.wf .binary32 (.setBandPass wide 0#64 0#64) = false ∧
    Instr.wf .binary32 (.setBandPass 0#64 wide 0#64) = false ∧ Instr.wf .binary32 (.setBandPass 0#64 0#64 wide) = false := by decide

theorem test_wf_notch : Instr.wf .binary32 (.setNotch wide 0#64 0#64) = false ∧
    Instr.wf .binary32 (.setNotch 0#64 wide 0#64) = false ∧ Instr.wf .binary32 (.setNotch 0#64 0#64 wide) = false := by decide

theorem test_wf_peak : Instr.wf .binary32 (.setPeak wide 0#64 0#64) = false ∧
    Instr.wf .binary32 (.setPeak 0#64 wide 0#64) = false ∧ Instr.wf .binary32 (.setPeak 0#64 0#64 wide) = false := by decide

theorem test_wf_lowShelf : Instr.wf .binary32 (.setLowShelf wide 0#64 0#64) = false ∧
    Instr.wf .binary32 (.setLowShelf 0#64 wide 0#64) = false ∧ Instr.wf .binary32 (.setLowShelf 0#64 0#64 wide) = false := by decide

theorem test_wf_highShelf : Instr.wf .binary32 (.setHighShelf wide 0#64 0#64) = false ∧
    Instr.wf .binary32 (.setHighShelf 0#64 wide 0#64) = false ∧ Instr.wf .binary32 (.setHighShelf 0#64 0#64 wide) = false := by
  decide

theorem test_wf_allPass : Instr.wf .binary32 (.setAllPass wide 0#64 0#64) = false ∧
    Instr.wf .binary32 (.setAllPass 0#64 wide 0#64) = false ∧ Instr.wf .binary32 (.setAllPass 0#64 0#64 wide) = false := by decide

/-- Words of `W` bits are accepted, up to the largest, and the other commands have no ill-formed operand (30_encoding.md R70). -/
theorem test_wf_accepts : Instr.wf .binary32 (.setPeak 0xFFFFFFFF#64 0xFFFFFFFF#64 0xFFFFFFFF#64) = true ∧
    Instr.wf .binary64 (.setPeak wide (BitVec.allOnes 64) wide) = true ∧ Instr.wf .binary32 (.prepare 0#32) = true ∧
    Instr.wf .binary32 (.process (BitVec.allOnes 32) 0#32) = true ∧ Instr.wf .binary32 .reset = true := by decide

/-! ### Decoding the words of X1 to X20 -/

/-- X1 to X5: rate at bits 36:5, `ftype` ignored. -/
theorem test_decode_prepare : decode .binary64 0x158880#197 = .prepare 44100#32 ∧ decode .binary64 0x177000#197 = .prepare 48000#32 ∧
    decode .binary64 0x0#197 = .prepare 0#32 ∧ decode .binary64 0x1FFFFFFFE0#197 = .prepare 4294967295#32 ∧
    decode .binary64 0x158894#197 = .prepare 44100#32 := by decide

/-- X6. -/
theorem test_decode_lowPass : decode .binary64 0x80300000000000007FCD413CCCFE779A811E8000000000001#197 =
    .setLowPass 0x408F400000000000#64 0x3FE6A09E667F3BCD#64 0x4018000000000000#64 := by decide

/-- X7. -/
theorem test_decode_highPass : decode .binary64 0x80300000000000007FCD413CCCFE779A811E8000000000005#197 =
    .setHighPass 0x408F400000000000#64 0x3FE6A09E667F3BCD#64 0x4018000000000000#64 := by decide

/-- X8. -/
theorem test_decode_bandPass : decode .binary64 0x80300000000000007FCD413CCCFE779A811E8000000000009#197 =
    .setBandPass 0x408F400000000000#64 0x3FE6A09E667F3BCD#64 0x4018000000000000#64 := by decide

/-- X9. -/
theorem test_decode_notch : decode .binary64 0x80300000000000007FCD413CCCFE779A811E800000000000D#197 =
    .setNotch 0x408F400000000000#64 0x3FE6A09E667F3BCD#64 0x4018000000000000#64 := by decide

/-- X10, and X14 at binary32. -/
theorem test_decode_peak : decode .binary64 0x80300000000000007FCD413CCCFE779A811E8000000000011#197 =
      .setPeak 0x408F400000000000#64 0x3FE6A09E667F3BCD#64 0x4018000000000000#64 ∧
    decode .binary32 0x818000007F00000088F400011#197 = .setPeak 0x447A0000#64 0x3F800000#64 0x40C00000#64 := by decide

/-- X11. -/
theorem test_decode_lowShelf : decode .binary64 0x80300000000000007FCD413CCCFE779A811E8000000000015#197 =
    .setLowShelf 0x408F400000000000#64 0x3FE6A09E667F3BCD#64 0x4018000000000000#64 := by decide

/-- X12. -/
theorem test_decode_highShelf : decode .binary64 0x80300000000000007FCD413CCCFE779A811E8000000000019#197 =
    .setHighShelf 0x408F400000000000#64 0x3FE6A09E667F3BCD#64 0x4018000000000000#64 := by decide

/-- X13. -/
theorem test_decode_allPass : decode .binary64 0x80300000000000007FCD413CCCFE779A811E800000000001D#197 =
    .setAllPass 0x408F400000000000#64 0x3FE6A09E667F3BCD#64 0x4018000000000000#64 := by decide

/-- X16 to X19. -/
theorem test_decode_process : decode .binary64 0xC8000000C82#197 = .process 100#32 100#32 ∧
    decode .binary64 0x6000000082#197 = .process 4#32 3#32 ∧ decode .binary64 0x2#197 = .process 0#32 0#32 ∧
    decode .binary64 0x400000005E#197 = .process 2#32 2#32 := by decide

/-- X20. -/
theorem test_decode_reset : decode .binary64 0x3#197 = .reset ∧ decode .binary64 0x7#197 = .reset ∧
    decode .binary64 0x1F#197 = .reset := by decide

/-- The words of X1, X6, X14, X16 and X20 from their commands. -/
theorem test_encode : encode .binary64 (.prepare 44100#32) = 0x158880#197 ∧
    encode .binary64 (.setLowPass 0x408F400000000000#64 0x3FE6A09E667F3BCD#64 0x4018000000000000#64) =
      0x80300000000000007FCD413CCCFE779A811E8000000000001#197 ∧
    encode .binary32 (.setPeak 0x447A0000#64 0x3F800000#64 0x40C00000#64) = 0x818000007F00000088F400011#197 ∧
    encode .binary64 (.process 100#32 100#32) = 0xC8000000C82#197 ∧ encode .binary64 .reset = 0x3#197 := by decide

/-- The host's numbering of a row's bits is the packed word's (X1, X16). -/
theorem test_decodeTableWord : decodeTableWord 37 0x158880 = some (.prepare 44100#32) ∧
    decodeTableWord 69 0xC8000000C82 = some (.process 100#32 100#32) := by decide

/-! ### The engine -/

/-- `sn`, `cs`, `alpha` and `A` of E1 to E8, the words of the decimals printed there. -/
def e1Sin : FWord := 0x3FC22CDEABEC443D#64
def e1Cos : FWord := 0x3FEFACFE8CDED93F#64
def e1Alpha : FWord := 0x3FB9B426CEA18DD8#64
def e1Amp : FWord := 0x3FF699C0F7E86E10#64

/-- The intermediates of E1 to E8: `w0`, `alpha`, and `a0r`, `a1r`, `a2r` through E1's quotients below. -/
theorem test_engine_intermediates :
    angularFrequency .binary64 noDraws 44100#32 0x408F400000000000#64 = 0x3FC23CA61DCC76A2#64 ∧
    bandwidth .binary64 noDraws e1Sin 0x3FE6A09E667F3BCD#64 = e1Alpha := by decide +kernel

/-- E1. -/
theorem test_engine_lowPass : normalise .binary64 noDraws (rawLowPass .binary64 noDraws e1Cos e1Alpha) =
    ⟨0x3F72DBA46E18CD80#64, 0x3F82DBA46E18CD80#64, 0x3F72DBA46E18CD80#64, 0xBFFCC9195111671C#64, 0x3FEA290FC59394A5#64⟩ := by
  decide +kernel

/-- E2. -/
theorem test_engine_highPass : normalise .binary64 noDraws (rawHighPass .binary64 noDraws e1Cos e1Alpha) =
    ⟨0x3FECEED099ED98B8#64, 0xBFFCEED099ED98B8#64, 0x3FECEED099ED98B8#64, 0xBFFCC9195111671C#64, 0x3FEA290FC59394A5#64⟩ := by
  decide +kernel

/-- E3 and E3s, the two forms. -/
theorem test_engine_bandPass :
    normalise .binary64 noDraws (rawBandPass .binary64 noDraws .peak0db e1Sin e1Cos e1Alpha) =
      ⟨0x3FB75BC0E9B1AD68#64, 0#64, 0xBFB75BC0E9B1AD68#64, 0xBFFCC9195111671C#64, 0x3FEA290FC59394A5#64⟩ ∧
    normalise .binary64 noDraws (rawBandPass .binary64 noDraws .skirt e1Sin e1Cos e1Alpha) =
      ⟨0x3FB084530514782D#64, 0#64, 0xBFB084530514782D#64, 0xBFFCC9195111671C#64, 0x3FEA290FC59394A5#64⟩ := by decide +kernel

/-- E4. -/
theorem test_engine_notch : normalise .binary64 noDraws (rawNotch .binary64 noDraws e1Cos e1Alpha) =
    ⟨0x3FED1487E2C9CA52#64, 0xBFFCC9195111671C#64, 0x3FED1487E2C9CA52#64, 0xBFFCC9195111671C#64, 0x3FEA290FC59394A5#64⟩ := by
  decide +kernel

/-- E5. -/
theorem test_engine_peak : normalise .binary64 noDraws (rawPeak .binary64 noDraws e1Amp e1Cos e1Alpha) =
    ⟨0x3FF10E8A2991A930#64, 0xBFFD92D90E723E61#64, 0x3FE9A39C48D59EB7#64, 0xBFFD92D90E723E61#64, 0x3FEBC0B09BF8F116#64⟩ := by
  decide +kernel

/-- E6. -/
theorem test_engine_lowShelf : normalise .binary64 noDraws (rawLowShelf .binary64 noDraws e1Amp e1Cos e1Alpha) =
    ⟨0x3FF0914FB79BC4FA#64, 0xBFFD2FB6F869CC2D#64, 0x3FEA15550580CBF4#64, 0xBFFD4AB7552032E9#64, 0x3FEB01F3BB4B8870#64⟩ := by
  decide +kernel

/-- E7. -/
theorem test_engine_highShelf : normalise .binary64 noDraws (rawHighShelf .binary64 noDraws e1Amp e1Cos e1Alpha) =
    ⟨0x3FFED497F0EA84F4#64, 0xC00C38A5F37A49CB#64, 0x3FFA0541AADA5297#64, 0xBFFC2FBA038ED35C#64, 0x3FE9308F70BE2E9F#64⟩ := by
  decide +kernel

/-- E8. -/
theorem test_engine_allPass : normalise .binary64 noDraws (rawAllPass .binary64 noDraws e1Cos e1Alpha) =
    ⟨0x3FEA290FC59394A5#64, 0xBFFCC9195111671C#64, 0x3FF0000000000000#64, 0xBFFCC9195111671C#64, 0x3FEA290FC59394A5#64⟩ := by
  decide +kernel

/-- E11 at binary32, Peak and HighShelf. -/
theorem test_engine_binary32 :
    normalise .binary32 noDraws (rawPeak .binary32 noDraws 0x3FB4CE08#64 0x3F7DCF55#64 0x3D85A8A9#64) =
      ⟨0x3F85A041#64, 0xBFF299DE#64, 0x3F5E230C#64, 0xBFF299DE#64, 0x3F69638E#64⟩ ∧
    normalise .binary32 noDraws (rawHighShelf .binary32 noDraws 0x3FB4CE08#64 0x3F7DCF55#64 0x3D85A8A9#64) =
      ⟨0x3FF951F6#64, 0xC06AE4C5#64, 0x3FDF5555#64, 0xBFEABC8C#64, 0x3F5B349A#64⟩ := by decide +kernel

/-- E21 at binary64: refused `freq` (`+0`, `-1`, `22050`, a NaN), `q` (`-0`, `-2`), `gain` (`+inf`); and E13, E15, E17, E19: legal
corners. -/
theorem test_engine_checks :
    validOperands .binary64 44100#32 0#64 0x3FF0000000000000#64 0#64 = false ∧
    validOperands .binary64 44100#32 0xBFF0000000000000#64 0x3FF0000000000000#64 0#64 = false ∧
    validOperands .binary64 44100#32 0x40D5888000000000#64 0x3FF0000000000000#64 0#64 = false ∧
    validOperands .binary64 44100#32 0x7FF8000000000000#64 0x3FF0000000000000#64 0#64 = false ∧
    validOperands .binary64 44100#32 0x408F400000000000#64 0x8000000000000000#64 0#64 = false ∧
    validOperands .binary64 44100#32 0x408F400000000000#64 0xC000000000000000#64 0#64 = false ∧
    validOperands .binary64 44100#32 0x408F400000000000#64 0x3FF0000000000000#64 0x7FF0000000000000#64 = false ∧
    validOperands .binary64 44100#32 0x40D5887FFFFFFFFF#64 0x3FF0000000000000#64 0#64 = true ∧
    validOperands .binary64 44100#32 0x0000000000000001#64 0x3FF0000000000000#64 0#64 = true ∧
    validOperands .binary64 44100#32 0x408F400000000000#64 0x0000000000000001#64 0#64 = true ∧
    validOperands .binary64 44100#32 0x408F400000000000#64 0x7FEFFFFFFFFFFFFF#64 0#64 = true := by decide +kernel

/-! ### The section -/

/-- The samples of K1. -/
def impulse : List FWord := [0x3FF0000000000000#64, 0#64, 0#64, 0#64, 0#64, 0#64]

/-- K1. -/
theorem test_process_impulse :
    samplesOf (.process 6#32 6#32) (k1State .df1 impulse) =
      some [0x3FE0000000000000#64, 0x3FE0000000000000#64, 0x3FD0000000000000#64, 0#64, 0xBFB0000000000000#64,
        0xBFA0000000000000#64] ∧
    (after (.process 6#32 6#32) (k1State .df1 impulse)).history =
      .df1 0#64 0#64 0xBFA0000000000000#64 0xBFB0000000000000#64 := by decide +kernel

/-- K7, the transposed form: the same outputs, `(s1, s2) = (0.0, 0.0078125)` after. -/
theorem test_process_impulse_transposed :
    samplesOf (.process 6#32 6#32) (k1State .df2t impulse) =
      some [0x3FE0000000000000#64, 0x3FE0000000000000#64, 0x3FD0000000000000#64, 0#64, 0xBFB0000000000000#64,
        0xBFA0000000000000#64] ∧
    (after (.process 6#32 6#32) (k1State .df2t impulse)).history = .df2t 0#64 0x3F80000000000000#64 := by decide +kernel

/-- K2: one step from a history that is not zero. -/
theorem test_section_step :
    recur .binary64 noDraws k1Coeffs 0x4000000000000000#64 0x3FF0000000000000#64 0x3FE0000000000000#64 0x3FD0000000000000#64
      0x3FC0000000000000#64 = 0x3FF6800000000000#64 := by decide +kernel

/-- K3: the order of evaluation, at both precisions. -/
theorem test_section_order :
    recur .binary32 noDraws ⟨0x3F800000#64, 0x3F800000#64, 0x3F800000#64, 0#64, 0#64⟩ 0x4B800000#64 0x3F800000#64 0x3F800000#64
      0#64 0#64 = 0x4B800000#64 ∧
    recur .binary64 noDraws ⟨0x3FF0000000000000#64, 0x3FF0000000000000#64, 0x3FF0000000000000#64, 0#64, 0#64⟩
      0x4170000000000000#64 0x3FF0000000000000#64 0x3FF0000000000000#64 0#64 0#64 = 0x4170000020000000#64 := by decide +kernel

/-- K8 (a) and (c): signs of zero. -/
theorem test_section_signed_zeros :
    samplesOf (.process 4#32 4#32) (configured .binary64
      ⟨0xBFE0000000000000#64, 0xBFD0000000000000#64, 0xBFC0000000000000#64, 0x3FE0000000000000#64, 0x3FD0000000000000#64⟩
      (.df1 0#64 0#64 0#64 0#64) [0#64, 0#64, 0#64, 0#64]) =
      some [0x8000000000000000#64, 0#64, 0#64, 0x8000000000000000#64] ∧
    samplesOf (.process 3#32 3#32) (configured .binary64
      ⟨0xBFE0000000000000#64, 0xBFD0000000000000#64, 0xBFC0000000000000#64, 0x3FE0000000000000#64, 0x3FD0000000000000#64⟩
      (.df2t 0#64 0#64) [0#64, 0#64, 0#64]) = some [0#64, 0#64, 0x8000000000000000#64] := by decide +kernel

/-- K9: subnormal samples are not flushed. -/
theorem test_section_subnormals :
    samplesOf (.process 3#32 3#32) (configured .binary64
      ⟨0x3FD2BEC333018866#64, 0x3FE2BEC333018866#64, 0x3FD2BEC333018866#64, 0xBC94AD57504A5270#64, 0x3FC5F619980C4339#64⟩
      (.df1 0#64 0#64 0#64 0#64) [1#64, 0#64, 0#64]) = some [0#64, 1#64, 0#64] := by decide +kernel

/-- The burst of P4 at binary32, its outputs word for word. -/
theorem test_process_binary32 :
    samplesOf (.process 6#32 6#32) (configured .binary32
      ⟨0x3F85A041#64, 0xBFF299DE#64, 0x3F5E230C#64, 0xBFF299DE#64, 0x3F69638E#64⟩ (.df1 0#64 0#64 0#64 0#64)
      [0x3F800000#64, 0xBF000000#64, 0x3E800000#64, 0x3F400000#64, 0xBF800000#64, 0x3F000000#64]) =
      some [0x3F85A041#64, 0xBEE09988#64, 0x3E961E86#64, 0x3F54B68C#64, 0xBF70E3CC#64, 0x3F06F126#64] := by decide +kernel

/-- Line 5 of P2, both forms: the HighPass coefficients on the history that the LowPass left, no click. -/
theorem test_process_no_click :
    samplesOf (.process 2#32 2#32) (configured .binary64
      ⟨0x3FE42DE41D48EC84#64, 0xBFF42DE41D48EC84#64, 0x3FE42DE41D48EC84#64, 0xBFF0B7907523B20F#64, 0x3FDE90DF15B89BE4#64⟩
      (.df1 0#64 0#64 0xBFB9BAB32855D681#64 0x3FCF0ED99BED9B2E#64) [0#64, 0#64]) =
      some [0xBFCC4635180E067A#64, 0xBFC765B67F8C1BA5#64] ∧
    samplesOf (.process 2#32 2#32) (configured .binary64
      ⟨0x3FE42DE41D48EC84#64, 0xBFF42DE41D48EC84#64, 0x3FE42DE41D48EC84#64, 0xBFF0B7907523B20F#64, 0x3FDE90DF15B89BE4#64⟩
      (.df2t 0xBFA55099CE5F12B6#64 0x3F91A86567DB0F38#64) [0#64, 0#64]) =
      some [0xBFA55099CE5F12B6#64, 0xBF9AE1E2D61E3C24#64] := by decide +kernel

/-- K6, the first step of the burst that begins with `-inf`. -/
theorem test_process_infinity :
    (samplesOf (.process 1#32 1#32) (configured .binary64
      ⟨0x3FE42DE41D48EC84#64, 0xBFF42DE41D48EC84#64, 0x3FE42DE41D48EC84#64, 0xBFF0B7907523B20F#64, 0x3FDE90DF15B89BE4#64⟩
      (.df1 0#64 0#64 0#64 0#64) [0xFFF0000000000000#64])) = some [0xFFF0000000000000#64] := by decide +kernel

/-! ### The command layer -/

/-- C1, C2: PREPARE in mode Unprepared. -/
theorem test_prepare :
    (after (.prepare 44100#32) State.reset).status = some .ok ∧ (after (.prepare 44100#32) State.reset).mode = .preparedUnconfigured ∧
    (after (.prepare 44100#32) State.reset).sr = 44100#32 ∧
    (after (.prepare 0#32) State.reset).status = some .invalidParameter ∧ (after (.prepare 0#32) State.reset).mode = .unprepared := by
  decide +kernel

/-- C16: PREPARE in mode Configured, under both values of `PREPARE_CLEARS_CONFIG`. -/
theorem test_prepare_again :
    (after (.prepare 44100#32) (k1State .df1 [])).mode = .preparedUnconfigured ∧
    (after (.prepare 44100#32) { k1State .df1 [] with params := ⟨.binary64, .peak0db, .df1, false⟩ }).mode = .configured := by
  decide +kernel

/-- C3, C4, C10, C11: SET LowPass in modes Unprepared and Prepared-unconfigured. -/
theorem test_set_lowPass :
    (after (.setLowPass 0x408F400000000000#64 0x3FF0000000000000#64 0#64) State.reset).status = some .notPrepared ∧
    (after (.setLowPass 0x7FF8000000000000#64 0xBFF0000000000000#64 0x7FF0000000000000#64) State.reset).status =
      some .notPrepared ∧
    (after (.setLowPass 0x408F400000000000#64 0x3FF0000000000000#64 0#64) (prepared .binary64 .df1)).mode = .configured ∧
    (after (.setLowPass 0x40D5888000000000#64 0x3FF0000000000000#64 0#64) (prepared .binary64 .df1)).status =
      some .invalidParameter := by decide +kernel

/-- The other seven SET rows accept the operands of E1 and refuse a `q` of 0 (C19, E21). -/
theorem test_set_others :
    ([FilterType.highPass, .bandPass, .notch, .peak, .lowShelf, .highShelf, .allPass].all fun t =>
      (after (setInstr t 0x408F400000000000#64 0x3FE6A09E667F3BCD#64 0x4018000000000000#64) (prepared .binary64 .df1)).mode ==
        .configured) = true ∧
    ([FilterType.highPass, .bandPass, .notch, .peak, .lowShelf, .highShelf, .allPass].all fun t =>
      (after (setInstr t 0x408F400000000000#64 0#64 0x4018000000000000#64) (prepared .binary64 .df1)).status ==
        some .invalidParameter) = true := by decide +kernel

/-- C5, C6, C12, C13, C14, C21, C22, C23: the statuses of PROCESS. -/
theorem test_process_status :
    (after (.process 1#32 2#32) State.reset).status = some .notPrepared ∧
    (after (.process 0#32 0#32) (prepared .binary64 .df1)).status = some .notConfigured ∧
    (after (.process 1#32 2#32) (prepared .binary64 .df1)).status = some .notConfigured ∧
    (after (.process 2#32 3#32) (k1State .df1 impulse)).status = some .lengthMismatch ∧
    (after (.process 0#32 1#32) (k1State .df1 [])).status = some .lengthMismatch ∧
    (after (.process 0#32 0#32) (k1State .df1 [])).response = some ⟨.ok, []⟩ := by decide +kernel

/-- C7, C24: RESET keeps the mode and zeroes the history. -/
theorem test_reset_command :
    (after .reset State.reset).status = some .ok ∧ (after .reset State.reset).mode = .unprepared ∧
    (after .reset (configured .binary64 k1Coeffs (.df1 1#64 2#64 3#64 4#64) [])).history = .df1 0#64 0#64 0#64 0#64 ∧
    (after .reset (configured .binary64 k1Coeffs (.df1 1#64 2#64 3#64 4#64) [])).coeffs = k1Coeffs := by decide +kernel

/-- Both layouts of 20_memory.md R43: the outputs land in `OUT`, and in `IN` too where one buffer is both; what lies behind the burst
stays. -/
theorem test_buffers :
    (after (.process 1#32 1#32) { k1State .df1 impulse with outBuf := [7#64, 8#64] }).outBuf = [0x3FE0000000000000#64, 8#64] ∧
    (after (.process 1#32 1#32) { k1State .df1 impulse with outBuf := [7#64, 8#64] }).inBuf = impulse ∧
    (after (.process 1#32 1#32) { k1State .df1 [0x3FF0000000000000#64, 9#64] with placement := .same }).inBuf =
      [0x3FE0000000000000#64, 9#64] := by decide +kernel

/-- The first step after reset runs the word that `withFetchWord` puts on the port (X1), and lines 1 and 4 of P3. -/
theorem test_first_step :
    (match step (State.reset.withFetchWord 37 0x158880) with
      | .next t => some (t.sr, t.prepared, t.status)
      | .fault _ => none
      | .refused _ => none) = some (44100#32, true, some .ok) ∧
    (match step (State.reset.withFetchWord 69 0x2000000022) with
      | .next t => t.status
      | .fault _ => none
      | .refused _ => none) = some .notPrepared ∧
    (match step (State.reset.withFetchWord 37 0x0) with
      | .next t => t.status
      | .fault _ => none
      | .refused _ => none) = some .invalidParameter := by decide +kernel

/-! ### Witnesses: the hypotheses of each statement of Certificates/Slice0/Obligations.lean can be met -/

/-- The operands of SET that the witnesses use: `1000.0 1.0 0.0`. -/
def f0 : FWord := 0x408F400000000000#64
def q0 : FWord := 0x3FF0000000000000#64
def g0 : FWord := 0#64

theorem f0_valid : validOperands .binary64 44100#32 f0 q0 g0 = true := by decide +kernel

/-- What a SET leaves on a prepared binary64 state at 44100 Hz. -/
theorem set_next (t : FilterType) (s : State) (hp : s.prepared = true) (h64 : s.params.precision = .binary64)
    (hsr : s.sr = 44100#32) :
    exec (setInstr t f0 q0 g0) s = .next { s with
      coeffs := cookbook s.params (Config.nanBits s.draws) t s.sr f0 q0 g0
      configured := true
      draws := s.draws + 1
      response := some ⟨.ok, []⟩ } := by
  rw [exec_setInstr]
  exact execSet_ok t f0 q0 g0 s hp (by rw [h64, hsr]; exact f0_valid)

/-- A SET with `q = 0` on such a state fails. -/
theorem set_fails (t : FilterType) (s : State) (hp : s.prepared = true) (h64 : s.params.precision = .binary64)
    (hsr : s.sr = 44100#32) :
    exec (setInstr t f0 0#64 g0) s = .next { s with response := some ⟨.invalidParameter, []⟩ } := by
  rw [exec_setInstr]
  exact execSet_invalid t f0 0#64 g0 s hp (by rw [h64, hsr]; decide +kernel)

/-- A SET on a prepared state answers `OK`. -/
theorem set_answers (t : FilterType) (s : State) (hp : s.prepared = true) (h64 : s.params.precision = .binary64)
    (hsr : s.sr = 44100#32) :
    ∃ u, exec (setInstr t f0 q0 g0) s = .next u ∧ u.status = some .ok :=
  ⟨_, set_next t s hp h64 hsr, rfl⟩

/-- A PROCESS on a configured state answers `OK`. -/
theorem process_answers (a : Len) (s : State) (h : s.prepared = true) (hc : s.configured = true)
    (hp : s.placement ≠ .partialOverlap) :
    ∃ t, exec (.process a a) s = .next t ∧ t.status = some .ok :=
  ⟨_, execProcess_ok a s h hc (.inl hp), rfl⟩

/-- HeaderSelectsTheRow: the low bits of each clause, under a word of zeros and under one of ones. -/
theorem witness_HeaderSelectsTheRow :
    (∀ h ∈ [0, 1, 5, 9, 13, 17, 21, 25, 29, 2, 3], ∃ w : Cmd, w.toNat % 32 = h ∧ w.toNat % 4 = h % 4) ∧
    (BitVec.allOnes 197).toNat % 4 = 3 := by
  refine ⟨fun h hh => ⟨BitVec.ofNat 197 h, ?_⟩, by decide⟩
  fin_cases hh <;> decide

theorem witness_DecodeUndoesEncode :
    Instr.wf .binary32 (.setNotch 0xFFFFFFFF#64 0#64 0x7F800000#64) = true ∧
    Instr.wf .binary64 (.setNotch (BitVec.allOnes 64) 0#64 0x7FF0000000000000#64) = true := by decide

/-- EncodeUndoesDecode: the largest PREPARE (X4), a SET of 101 bits (X14), the empty burst (X18). -/
theorem witness_EncodeUndoesDecode :
    (0x1FFFFFFFE0#197).toNat < 2 ^ (decode .binary32 0x1FFFFFFFE0#197).packedWidth .binary32 ∧
    (decode .binary32 0x1FFFFFFFE0#197).filterType = none ∧ (0x1FFFFFFFE0#197).toNat / 4 % 8 = 0 ∧
    (0x818000007F00000088F400011#197).toNat < 2 ^ (decode .binary32 0x818000007F00000088F400011#197).packedWidth .binary32 ∧
    (decode .binary32 0x818000007F00000088F400011#197).filterType = some .peak ∧
    (0x2#197).toNat < 2 ^ (decode .binary64 0x2#197).packedWidth .binary64 ∧ (0x2#197).toNat / 4 % 8 = 0 := by decide

/-- IgnoredTypeBitsChangeNothing: X1 and X5. -/
theorem witness_IgnoredTypeBitsChangeNothing :
    (decode .binary64 0x158880#197).filterType = none ∧ (0x158880#197).toNat % 4 = (0x158894#197).toNat % 4 ∧
    (0x158880#197).toNat / 32 = (0x158894#197).toNat / 32 := by decide

/-- StatusesOfEachCommand: each kind of command answers. -/
theorem witness_StatusesOfEachCommand :
    (∃ t, exec (.prepare 1#32) State.reset = .next t) ∧ (∃ t, exec (.prepare 0#32) State.reset = .next t) ∧
    (∃ t, exec (setInstr .peak f0 q0 g0) (prepared .binary64 .df1) = .next t) ∧
    (∃ t, exec (.process 1#32 1#32) (k1State .df1 impulse) = .next t) ∧ (∃ t, exec .reset State.reset = .next t) := by
  obtain ⟨u, hu, _⟩ := set_answers .peak (prepared .binary64 .df1) rfl rfl rfl
  obtain ⟨v, hv, _⟩ := process_answers 1#32 (k1State .df1 impulse) rfl rfl (by decide)
  exact ⟨⟨_, execPrepare_ok _ _ (by decide)⟩, ⟨_, execPrepare_zero _⟩, ⟨u, hu⟩, ⟨v, hv⟩, ⟨_, execReset_eq _⟩⟩

/-- RstReturnsToTheResetState. -/
theorem witness_RstReturnsToTheResetState : ({ k1State .df1 [] with pending := [.rst] } : State).pending = .rst :: [] := rfl

/-- StepRunsTheDecodedCommand: X1 on the port of an instance with an opaque band-pass form. -/
theorem witness_StepRunsTheDecodedCommand :
    (State.reset.withFetchWord 37 0x158880).pending = .command ⟨0x158880#197, [], [], .separate⟩ :: [] ∧
    decode State.reset.params.precision 0x158880#197 = .prepare 44100#32 := by decide

theorem witness_IdleStepChangesNothing : State.reset.pending = [] := rfl

/-- EveryStepAnswersButPartialOverlap, the clause of the refusal (X19: a PROCESS of 2 samples). -/
theorem witness_EveryStepAnswersButPartialOverlap :
    decode .binary64 0x400000005E#197 = .process 2#32 2#32 ∧ (2#32 : Len) ≠ 0#32 ∧ (k1State .df1 impulse).prepared = true ∧
    (k1State .df1 impulse).configured = true ∧ (k1State .df1 impulse).params.precision = .binary64 := by decide

/-- NoStepChangesTheParameters, and the step of the four invariants: X1 on the port of a state that meets them all. -/
theorem witness_step_invariants :
    ∃ s t : State, step s = .next t ∧ s.legal = true ∧ s.wordsFit = true ∧ s.FromEngine ∧ s.configured = true := by
  have hc : (cookbook (instanceOf .binary64 .df1) (Config.nanBits 0) .peak 44100#32 f0 q0 g0).all (Precision.fits .binary64) =
      true := by
    have h : (instanceOf .binary64 .df1).precision = .binary64 := rfl
    simp only [Coeffs.all, cookbook, normalise, h, fdiv_fits, Bool.and_self]
  have hh : (History.zero .df1).all (Precision.fits .binary64) = true := by decide
  exact ⟨{ prepared .binary64 .df1 with
      coeffs := cookbook (instanceOf .binary64 .df1) (Config.nanBits 0) .peak 44100#32 f0 q0 g0
      configured := true }, _, rfl, by decide, Bool.and_eq_true_iff.mpr ⟨hc, hh⟩,
    fun _ => ⟨Config.nanBits 0, .peak, 44100#32, f0, q0, g0, if_pos f0_valid, fun _ => rfl⟩, rfl⟩

theorem witness_ResetRegisterValuesAreUnobservable : State.reset.prepared = false ∧ State.reset.configured = false := ⟨rfl, rfl⟩

/-- A quotient of `+0` is a zero or a NaN. -/
theorem zero_over (p : Precision) (n x : FWord) (h : p.isNaN (fdiv p n 0#64 x) = false) : p.isZero (fdiv p n 0#64 x) = true := by
  have h0 : p.isNaN 0#64 = false ∧ p.isInf 0#64 = false ∧ p.isZero 0#64 = true ∧ p.scaled 0#64 = 0 := by cases p <;> decide
  unfold fdiv at h ⊢
  simp only [h0, Bool.false_or, Bool.false_eq_true, if_false, Nat.zero_mul] at h ⊢
  split_ifs at h ⊢
  · simp at h
  · exact p.isZero_zeroWord _
  · simp at h
  · have hr : p.roundMag 0 (p.scaled x) = 0 := by
      rename_i hz
      have hs : p.scaled x ≠ 0 := fun hc => hz ((p.scaled_eq_zero_iff x).mp hc)
      have hv : p.magValue 0 = 0 := by cases p <;> decide
      have hi : 0 < p.infMag := by cases p <;> decide
      have := p.roundMag_exact 0 (p.scaled x) (Nat.pos_of_ne_zero hs) hi
      rwa [hv, Nat.zero_mul] at this
    rw [hr]
    exact p.isZero_zeroWord _

theorem zero_over_cases (p : Precision) (n x w : FWord) (h : fdiv p n 0#64 x = w) : p.isNaN w = true ∨ p.isZero w = true := by
  subst h
  by_cases hn : p.isNaN (fdiv p n 0#64 x) = true
  · exact Or.inl hn
  · exact Or.inr (zero_over p n x (Bool.not_eq_true _ ▸ hn))

/-- CoefficientsAreWrittenBySetOnly: a BandPass replaces a `b1` of 0.25 by a zero or a NaN. -/
theorem witness_CoefficientsAreWrittenBySetOnly :
    ∃ t, exec (setInstr .bandPass f0 q0 g0) (k1State .df1 []) = .next t ∧ t.coeffs ≠ (k1State .df1 []).coeffs := by
  refine ⟨_, set_next .bandPass (k1State .df1 []) rfl rfl rfl, ?_⟩
  intro hc
  have hb := congrArg Coeffs.b1 hc
  simp only [cookbook, normalise, rawValues, rawBandPass] at hb
  have hw := zero_over_cases _ _ _ _ hb
  have hp : (k1State .df1 []).params.precision = .binary64 := rfl
  have hk : (k1State .df1 []).coeffs.b1 = 0x3FD0000000000000#64 := rfl
  rw [hp, hk] at hw
  revert hw
  decide

/-- HistoryIsWrittenByProcessPrepareReset: RESET on a history that is not zero. -/
theorem witness_HistoryIsWrittenByProcessPrepareReset :
    ∃ t, exec .reset (configured .binary64 k1Coeffs (.df1 1#64 2#64 3#64 4#64) []) = .next t ∧
      t.history ≠ (configured .binary64 k1Coeffs (.df1 1#64 2#64 3#64 4#64) []).history :=
  ⟨_, execReset_eq _, by decide⟩

/-- PreparedIsSetByPrepareAndClearedByRstOnly: `prepared` set, and cleared by `rst`. -/
theorem witness_PreparedIsSetByPrepareAndClearedByRstOnly :
    (∃ t, exec (.prepare 1#32) State.reset = .next t ∧ t.prepared ≠ State.reset.prepared) ∧
    (∃ t, exec .reset (prepared .binary64 .df1) = .next t ∧ (prepared .binary64 .df1).prepared = true) ∧
    (∃ t, step { prepared .binary64 .df1 with pending := [.rst] } = .next t ∧ t.prepared = false) ∧
    State.reset.prepared = false :=
  ⟨⟨_, execPrepare_ok _ _ (by decide), by decide⟩, ⟨_, execReset_eq _, rfl⟩, ⟨_, rfl, rfl⟩, rfl⟩

/-- SampleRateIsWrittenByPrepareOnly, with the largest rate (X4). -/
theorem witness_SampleRateIsWrittenByPrepareOnly :
    ∃ t, exec (.prepare 4294967295#32) State.reset = .next t ∧ t.sr ≠ State.reset.sr :=
  ⟨_, execPrepare_ok _ _ (by decide), by decide⟩

/-- ModeTransitionsFollowTheTable: a legal state in each mode, a `derive` that succeeds and one that fails (`freq = sr/2`). -/
theorem witness_ModeTransitionsFollowTheTable :
    State.reset.legal = true ∧ State.reset.mode = .unprepared ∧ (prepared .binary64 .df1).legal = true ∧
    (prepared .binary64 .df1).mode = .preparedUnconfigured ∧ (k1State .df2t []).legal = true ∧
    (k1State .df2t []).mode = .configured ∧
    (derive (instanceOf .binary64 .df1) noDraws .peak 44100#32 f0 q0 g0).isSome = true ∧
    derive (instanceOf .binary64 .df1) noDraws .peak 44100#32 0x40D5888000000000#64 q0 g0 = none := by
  refine ⟨by decide, rfl, by decide, rfl, by decide, rfl, ?_, ?_⟩
  · unfold derive
    have h : validOperands (instanceOf .binary64 .df1).precision 44100#32 f0 q0 g0 = true := f0_valid
    simp only [h, if_true, Option.isSome_some]
  · unfold derive
    rw [if_neg (by decide +kernel)]

/-- FailingCommandsChangeNothing. -/
theorem witness_FailingCommandsChangeNothing : ∃ t, exec (.prepare 0#32) State.reset = .next t ∧ t.status ≠ some .ok :=
  ⟨_, execPrepare_zero _, by decide⟩

/-- NotPreparedIsRaisedBySetAndProcess. -/
theorem witness_NotPreparedIsRaisedBySetAndProcess :
    State.reset.prepared = false ∧
    ∃ t, exec (.process 1#32 2#32) State.reset = .next t ∧ t.status = some .notPrepared :=
  ⟨rfl, _, execProcess_unprepared _ _ _ rfl, rfl⟩

/-- NotConfiguredIsRaisedByProcessOnly (C13), with a SET that fails. -/
theorem witness_NotConfiguredIsRaisedByProcessOnly :
    (prepared .binary64 .df1).prepared = true ∧ (prepared .binary64 .df1).configured = false ∧
    (∃ t, exec (.process 1#32 2#32) (prepared .binary64 .df1) = .next t ∧ t.status = some .notConfigured) ∧
    (∃ t, exec (setInstr .notch f0 0#64 g0) (prepared .binary64 .df1) = .next t ∧ t.status ≠ some .ok) :=
  ⟨rfl, rfl, ⟨_, execProcess_unconfigured _ _ _ rfl rfl, rfl⟩,
    ⟨_, set_fails .notch (prepared .binary64 .df1) rfl rfl rfl, by simp [State.status]⟩⟩

/-- LengthMismatchIsRaisedByProcessOnly, and the third test of PROCESS (C23: the input is the shorter, by the least). -/
theorem witness_LengthMismatchIsRaisedByProcessOnly :
    (k1State .df1 []).prepared = true ∧ (k1State .df1 []).configured = true ∧ (0#32 : Len) ≠ 1#32 ∧
    ∃ t, exec (.process 0#32 1#32) (k1State .df1 []) = .next t ∧ t.status = some .lengthMismatch :=
  ⟨rfl, rfl, by decide, _, execProcess_mismatch _ _ _ rfl rfl (by decide), rfl⟩

/-- PrepareStoresTheRateAndZeroesTheHistory: the least positive rate, the largest, and 0. -/
theorem witness_PrepareStoresTheRateAndZeroesTheHistory :
    (1#32 : Rate) ≠ 0#32 ∧ (4294967295#32 : Rate) ≠ 0#32 ∧ (0#32 : Rate) = 0#32 := by decide

/-- The eight Set...StoresItsQuotients: operands at both ends of what is accepted, at both precisions (E13, E15, E17, E19, R79). -/
theorem witness_SetStoresItsQuotients :
    (prepared .binary64 .df1).prepared = true ∧ Accepted .binary64 44100#32 f0 q0 g0 ∧
    Accepted .binary64 44100#32 0x40D5887FFFFFFFFF#64 0x0000000000000001#64 0xC072C00000000000#64 ∧
    Accepted .binary64 44100#32 0x0000000000000001#64 0x7FEFFFFFFFFFFFFF#64 g0 ∧
    Accepted .binary32 48000#32 0x447A0000#64 0x3F800000#64 0x40C00000#64 ∧
    Accepted .binary64 1#32 0x3FD0000000000000#64 q0 g0 := by
  refine ⟨rfl, ?_, ?_, ?_, ?_, ?_⟩ <;> rw [← validOperands_iff] <;> decide +kernel

/-- SetSucceedsExactlyOnAcceptedOperands: accepted operands, and `freq = sr/2` exactly, which is not accepted. -/
theorem witness_SetSucceedsExactlyOnAcceptedOperands :
    Accepted .binary64 44100#32 0x40D5887FFFFFFFFF#64 q0 g0 ∧ ¬ Accepted .binary64 44100#32 0x40D5888000000000#64 q0 g0 := by
  constructor <;> rw [← validOperands_iff] <;> decide +kernel

/-- NonFiniteOperandsAreRefused: a NaN, both infinities, and two finite gains (`+0` and `-300`). -/
theorem witness_NonFiniteOperandsAreRefused :
    Precision.finite .binary64 0x7FF8000000000000#64 = false ∧ Precision.finite .binary64 0x7FF0000000000000#64 = false ∧
    Precision.finite .binary64 0xFFF0000000000000#64 = false ∧ Precision.finite .binary64 g0 = true ∧
    Precision.finite .binary64 0xC072C00000000000#64 = true ∧ FilterType.allPass ≠ .peak ∧ FilterType.allPass ≠ .lowShelf ∧
    FilterType.allPass ≠ .highShelf := by decide

/-- FailingSetLeavesNoTrace (C19). -/
theorem witness_FailingSetLeavesNoTrace :
    ∃ t, exec (setInstr .highPass f0 0#64 g0) (k1State .df1 impulse) = .next t ∧ t.status ≠ some .ok :=
  ⟨_, set_fails .highPass (k1State .df1 impulse) rfl rfl rfl, by simp [State.status]⟩

/-- SetKeepsTheHistory, with its last clause's premises. -/
theorem witness_SetKeepsTheHistory :
    ∃ t, exec (setInstr .highPass f0 q0 g0) (configured .binary64 k1Coeffs (.df1 1#64 2#64 3#64 4#64) [q0]) = .next t ∧
      t.status = some .ok ∧ (configured .binary64 k1Coeffs (.df1 1#64 2#64 3#64 4#64) [q0]).inBuf = q0 :: [] ∧
      (configured .binary64 k1Coeffs (.df1 1#64 2#64 3#64 4#64) [q0]).placement ≠ .partialOverlap ∧ (1#32 : Len) ≠ 0#32 :=
  ⟨_, set_next .highPass (configured .binary64 k1Coeffs (.df1 1#64 2#64 3#64 4#64) [q0]) rfl rfl rfl, rfl, rfl, by decide,
    by decide⟩

/-- DeriveIsAFunctionOfItsOperands and the last clause of CoefficientsAreRelatedByType. -/
theorem witness_DeriveIsAFunctionOfItsOperands :
    (∃ r, derive (instanceOf .binary64 .df1) noDraws .notch 44100#32 f0 q0 g0 = some r) ∧
    (∃ r, derive (instanceOf .binary64 .df1) (Config.nanBits 0) .allPass 44100#32 f0 q0 q0 = some r) ∧
    (∃ t, exec (setInstr .notch f0 q0 g0) (prepared .binary64 .df1) = .next t ∧ t.status = some .ok) := by
  have h := f0_valid
  have h' : validOperands .binary64 44100#32 f0 q0 q0 = true := by decide +kernel
  exact ⟨⟨_, if_pos h⟩, ⟨_, if_pos h'⟩, set_answers .notch (prepared .binary64 .df1) rfl rfl rfl⟩

/-- SetIsIdempotent: the two states differ in their history and coefficients. -/
theorem witness_SetIsIdempotent :
    (k1State .df1 impulse).params = (prepared .binary64 .df1).params ∧ (k1State .df1 impulse).sr = (prepared .binary64 .df1).sr ∧
    (∃ t, exec (setInstr .peak f0 q0 g0) (prepared .binary64 .df1) = .next t ∧ t.status = some .ok) ∧
    (∃ t, exec (setInstr .peak f0 q0 g0) (k1State .df1 impulse) = .next t ∧ t.status = some .ok) :=
  ⟨rfl, rfl, set_answers .peak (prepared .binary64 .df1) rfl rfl rfl, set_answers .peak (k1State .df1 impulse) rfl rfl rfl⟩

/-- CoefficientsAreRelatedByType: a SET of each of its types answers `OK`. -/
theorem witness_CoefficientsAreRelatedByType (t : FilterType) :
    ∃ u, exec (setInstr t f0 q0 g0) (prepared .binary64 .df1) = .next u ∧ u.status = some .ok :=
  set_answers t (prepared .binary64 .df1) rfl rfl rfl

/-- PeakAtUnitAmplitudeIsTheIdentity: E1's `alpha`. -/
theorem witness_PeakAtUnitAmplitudeIsTheIdentity :
    Precision.fits .binary64 e1Alpha = true ∧ Precision.finite .binary64 e1Alpha = true ∧
    Precision.finite .binary64 (fadd .binary64 0#64 (cvt .binary64 1) e1Alpha) = true ∧
    Precision.isZero .binary64 (fadd .binary64 0#64 (cvt .binary64 1) e1Alpha) = false := by decide +kernel

/-- ProcessFiltersItsInput: each clause, the last one also for an empty burst over overlapping buffers. -/
theorem witness_ProcessFiltersItsInput :
    State.reset.prepared = false ∧ ((prepared .binary64 .df1).prepared = true ∧ (prepared .binary64 .df1).configured = false) ∧
    ((k1State .df1 impulse).prepared = true ∧ (k1State .df1 impulse).configured = true ∧ (2#32 : Len) ≠ 3#32 ∧
      (k1State .df1 impulse).placement ≠ .partialOverlap) ∧
    (({ k1State .df1 [] with placement := .partialOverlap } : State).placement ≠ .partialOverlap ∨ (0#32 : Len) = 0#32) := by
  decide

/-- BurstSatisfiesTheDifferenceEquation, DirectFormStepShiftsTheHistory, NaNsTaintEveryLaterOutput (its clauses: a NaN sample, a NaN
in `y1`). -/
theorem witness_direct_form_bursts :
    (k1State .df1 impulse).prepared = true ∧ (k1State .df1 impulse).configured = true ∧
    (k1State .df1 impulse).placement ≠ .partialOverlap ∧ (k1State .df1 impulse).history = .df1 0#64 0#64 0#64 0#64 ∧
    (k1State .df1 [q0]).inBuf = q0 :: [] ∧ Precision.fits .binary64 q0 = true ∧
    ((k1State .df1 [q0, 0x7FF8000000000000#64]).input 2)[1]? = some 0x7FF8000000000000#64 ∧
    Precision.isNaN .binary64 0x7FF8000000000000#64 = true := by decide +kernel

/-- TransposedStepUpdatesThePartialSums, and the clause of NaNsTaintEveryLaterOutput for `s1`. -/
theorem witness_transposed_bursts :
    (k1State .df2t [q0]).prepared = true ∧ (k1State .df2t [q0]).configured = true ∧
    (k1State .df2t [q0]).placement ≠ .partialOverlap ∧ (k1State .df2t [q0]).history = .df2t 0#64 0#64 ∧
    (k1State .df2t [q0]).inBuf = q0 :: [] ∧ Precision.isNaN .binary64 0xFFF8000000000001#64 = true := by decide

/-- OutputWordIsTheHistoryWord. -/
theorem witness_OutputWordIsTheHistoryWord :
    (k1State .df1 impulse).history = .df1 0#64 0#64 0#64 0#64 ∧ (1#32 : Len) ≠ 0#32 ∧
    ∃ t, exec (.process 1#32 1#32) (k1State .df1 impulse) = .next t ∧ t.status = some .ok :=
  ⟨rfl, by decide, process_answers 1#32 (k1State .df1 impulse) rfl rfl (by decide)⟩

/-- BurstsConcatenate: K4's two bursts, and the empty one between them. -/
theorem witness_BurstsConcatenate (form : SectionForm) (s : State) (hs : s = k1State form []) :
    (impulse.take 2).length = (2#32 : Len).toNat ∧ (impulse.drop 2).length = (4#32 : Len).toNat ∧
    (6#32 : Len).toNat = (2#32 : Len).toNat + (4#32 : Len).toNat ∧ s.prepared = true ∧ s.configured = true ∧
    s.placement = .separate ∧
    (∃ t, exec (.process 2#32 2#32) { s with inBuf := impulse.take 2 } = .next t ∧
      ∃ t', exec (.process 4#32 4#32) { t with inBuf := impulse.drop 2, draws := 7 } = .next t') ∧
    ∃ w, exec (.process 6#32 6#32) { s with inBuf := impulse.take 2 ++ impulse.drop 2 } = .next w := by
  subst hs
  have hsep : Placement.separate ≠ .partialOverlap := by decide
  refine ⟨rfl, rfl, rfl, rfl, rfl, rfl, ⟨_, execProcess_ok _ _ rfl rfl (.inl hsep), _,
    execProcess_ok _ _ ?_ ?_ (.inl ?_)⟩, ⟨_, execProcess_ok _ _ rfl rfl (.inl hsep)⟩⟩
  · exact (burst_frame _ _ _).2.2.2.1
  · exact (burst_frame _ _ _).2.2.2.2.1
  · show (burst _ _ _).1.placement ≠ _
    rw [(burst_frame _ _ _).2.2.2.2.2.2.1]
    exact hsep

/-- FailingProcessIsWhole: each of its three premises. -/
theorem witness_FailingProcessIsWhole :
    State.reset.prepared = false ∧ (prepared .binary64 .df1).configured = false ∧ (4#32 : Len) ≠ 3#32 := by decide

/-- ZeroInputGivesZeroOutput: zeros of both signs. -/
theorem witness_ZeroInputGivesZeroOutput :
    (k1State .df1 [0#64, 0x8000000000000000#64]).coeffs.all (Precision.finite .binary64) = true ∧
    (configured .binary64 k1Coeffs (.df1 0#64 0x8000000000000000#64 0#64 0#64) []).history.all (Precision.isZero .binary64) =
      true ∧
    (∀ x ∈ (k1State .df1 [0#64, 0x8000000000000000#64]).input 2, Precision.isZero .binary64 x = true) := by
  refine ⟨by decide, by decide, ?_⟩
  have h := (k1State .df1 [0#64, 0x8000000000000000#64]).input_of_length 2 rfl
  have hin : (k1State .df1 [0#64, 0x8000000000000000#64]).inBuf = [0#64, 0x8000000000000000#64] := rfl
  rw [h, hin]
  intro x hx
  simp only [List.map_cons, List.map_nil, List.mem_cons, List.not_mem_nil, or_false] at hx
  rcases hx with rfl | rfl <;> decide

/-- SharedBufferGivesTheSameResult. -/
theorem witness_SharedBufferGivesTheSameResult :
    (k1State .df1 impulse).placement = .separate ∧ ∃ t, exec (.process 2#32 2#32) (k1State .df1 impulse) = .next t :=
  ⟨rfl, _, execProcess_ok _ _ rfl rfl (.inl (by decide))⟩

/-- AdditionRoundsTheExactSum, MultiplicationAndDivisionRoundOnce: the largest finite word and the smallest subnormal, which is no
zero. -/
theorem witness_finite_words :
    Precision.finite .binary64 0x7FEFFFFFFFFFFFFF#64 = true ∧ Precision.finite .binary64 0x8000000000000001#64 = true ∧
    Precision.isZero .binary64 0x8000000000000001#64 = false ∧ Precision.finite .binary32 0x7F7FFFFF#64 = true ∧
    Precision.isZero .binary32 0x00000001#64 = false := by decide

/-- SquareRootAndConversionRoundOnce: `-0`, whose real value is 0, and a positive number. -/
theorem witness_SquareRootAndConversionRoundOnce :
    Precision.finite .binary64 0x8000000000000000#64 = true ∧ 0 ≤ Precision.real .binary64 0x8000000000000000#64 ∧
    Precision.finite .binary64 q0 = true ∧ 0 ≤ Precision.real .binary64 q0 := by
  refine ⟨by decide, ?_, by decide, ?_⟩
  · exact div_nonneg (by exact_mod_cast (by decide +kernel : 0 ≤ Precision.scaledInt .binary64 0x8000000000000000#64))
      (by positivity)
  · exact div_nonneg (by exact_mod_cast (by decide +kernel : 0 ≤ Precision.scaledInt .binary64 q0)) (by positivity)

/-- SpecialOperandsGiveTheirResults: a NaN, infinities of one sign, zeros, a negative number. -/
theorem witness_SpecialOperandsGiveTheirResults :
    Precision.isNaN .binary64 0x7FF0000000000001#64 = true ∧ Precision.fits .binary64 0x7FF0000000000001#64 = true ∧
    Precision.isInf .binary64 0x7FF0000000000000#64 = true ∧ Precision.isInf .binary64 0xFFF0000000000000#64 = true ∧
    Precision.isZero .binary64 0x8000000000000000#64 = true ∧ Precision.signBit .binary64 0xBFF0000000000000#64 = true ∧
    Precision.isZero .binary64 0xBFF0000000000000#64 = false ∧ Precision.finite .binary64 0xBFF0000000000000#64 = true := by decide

/-- SubnormalsAreNotFlushed: the smallest subnormal and the largest, at both precisions. -/
theorem witness_SubnormalsAreNotFlushed :
    Precision.fits .binary64 1#64 = true ∧ Precision.finite .binary64 1#64 = true ∧ Precision.isZero .binary64 1#64 = false ∧
    Precision.isZero .binary64 0x8000000000000000#64 = true ∧ Precision.fits .binary32 0x007FFFFF#64 = true ∧
    Precision.finite .binary32 0x007FFFFF#64 = true ∧ Precision.isZero .binary32 0x007FFFFF#64 = false := by decide

end Sys2Proof.Tests
end

section
/-! The coefficient engine, 40_coefficient_engine.md: `derive` is its checks followed by `cookbook`, a successful SET is
inverted to them, and from both follow R76 (operands that are not finite) and R95 (equal operands, equal coefficients). -/

namespace Sys2Proof.Machine

/-! ### What `derive` and SET answer -/

theorem derive_eq_none_iff (c : Params) (d : Draws) (ty : FilterType) (sr : Rate) (f q g : FWord) :
    derive c d ty sr f q g = none ↔ validOperands c.precision sr f q g = false := by
  simp [derive]

theorem derive_eq_some_iff (c : Params) (d : Draws) (ty : FilterType) (sr : Rate) (f q g : FWord) (r : Coeffs) :
    derive c d ty sr f q g = some r ↔
      validOperands c.precision sr f q g = true ∧ cookbook c d ty sr f q g = r := by
  simp [derive]

/-- A SET that answers `OK` found the block prepared and its operands valid, and stored the cookbook's results (R107). -/
theorem execSet_status_ok {ty : FilterType} {f q g : FWord} {s t : State} (h : execSet ty f q g s = .next t)
    (hok : t.status = some .ok) :
    s.prepared = true ∧ validOperands s.params.precision s.sr f q g = true ∧ t = { s with
      coeffs := cookbook s.params (Config.nanBits s.draws) ty s.sr f q g
      configured := true
      draws := s.draws + 1
      response := some ⟨.ok, []⟩ } := by
  have hp : s.prepared = true := by
    by_contra hp
    rw [execSet_unprepared _ _ _ _ _ (Bool.eq_false_of_not_eq_true hp), Host.Outcome.next.injEq] at h
    simp [← h, State.status] at hok
  have hv : validOperands s.params.precision s.sr f q g = true := by
    by_contra hv
    rw [execSet_invalid _ _ _ _ _ hp (Bool.eq_false_of_not_eq_true hv), Host.Outcome.next.injEq] at h
    simp [← h, State.status] at hok
  rw [execSet_ok _ _ _ _ _ hp hv, Host.Outcome.next.injEq] at h
  exact ⟨hp, hv, h.symm⟩

/-! ### Operands that are not finite (R76) -/

theorem validOperands_of_not_finite (p : Precision) (sr : Rate) {f q g : FWord}
    (h : p.finite f = false ∨ p.finite q = false ∨ p.finite g = false) : validOperands p sr f q g = false := by
  rcases h with h | h | h <;> simp [validOperands, h]

/-- Of the gain the checks ask only that it is finite (R76, R79). -/
theorem validOperands_gain (p : Precision) (sr : Rate) (f q : FWord) {g g' : FWord} (hg : p.finite g = true)
    (hg' : p.finite g' = true) : validOperands p sr f q g = validOperands p sr f q g' := by
  simp only [validOperands, hg, hg']

/-- The gain enters the raw values of Peak, LowShelf and HighShelf only (R83). -/
theorem rawValues_gain (c : Params) (d : Draws) {ty : FilterType} (sn cs al g g' : FWord) (hpeak : ty ≠ .peak)
    (hlow : ty ≠ .lowShelf) (hhigh : ty ≠ .highShelf) : rawValues c d ty sn cs al g = rawValues c d ty sn cs al g' := by
  cases ty with
  | peak | lowShelf | highShelf => contradiction
  | lowPass | highPass | bandPass | notch | allPass => rfl

theorem derive_gain (c : Params) (d : Draws) {ty : FilterType} (sr : Rate) (f q : FWord) {g g' : FWord}
    (hg : c.precision.finite g = true) (hg' : c.precision.finite g' = true) (hpeak : ty ≠ .peak)
    (hlow : ty ≠ .lowShelf) (hhigh : ty ≠ .highShelf) : derive c d ty sr f q g = derive c d ty sr f q g' := by
  simp only [derive, cookbook, validOperands_gain _ sr f q hg hg', rawValues_gain c d _ _ _ g g' hpeak hlow hhigh]

/-- Settles O38: the checks of R76 come first and ask for three finite operands; past them a gain that the type ignores is read
by nothing. -/
theorem nonFiniteOperandsAreRefused : Obligations.NonFiniteOperandsAreRefused := by
  intro s ty f q g
  constructor
  · intro hfin
    constructor
    · exact fun d sr => (derive_eq_none_iff ..).mpr (validOperands_of_not_finite _ sr hfin)
    · intro hp
      rw [exec_setInstr]
      exact execSet_invalid ty f q g s hp (validOperands_of_not_finite _ _ hfin)
  · intro g' hg hg' hpeak hlow hhigh
    have hderive : ∀ d sr, derive s.params d ty sr f q g = derive s.params d ty sr f q g' :=
      fun d sr => derive_gain s.params d sr f q hg hg' hpeak hlow hhigh
    refine ⟨hderive, ?_⟩
    simp only [exec_setInstr, execSet, hderive]

/-! ### Equal operands (R95) -/

/-- No frequency lies strictly between 0 and half of a rate of 0 (R77). -/
theorem rate_ne_zero_of_accepted {p : Precision} {sr : Rate} {f q g : FWord} (h : Accepted p sr f q g) :
    sr.toNat ≠ 0 := by
  obtain ⟨-, -, -, hpos, hnyquist, -⟩ := h
  intro h0
  rw [h0, Nat.cast_zero] at hnyquist
  linarith

/-- On valid operands the draws change NaN bit patterns of the coefficients only: `w0` is no NaN, so that `fsin` and `fcos` read
the same word at every call. -/
theorem cookbook_same (c : Params) (d d' : Draws) (ty : FilterType) {sr : Rate} {f q g : FWord}
    (hv : validOperands c.precision sr f q g = true) :
    (cookbook c d ty sr f q g).same c.precision (cookbook c d' ty sr f q g) := by
  have hacc := (validOperands_iff ..).mp hv
  have hsr := rate_ne_zero_of_accepted hacc
  obtain ⟨hf, -, hg, -⟩ := hacc
  have hw0 : angularFrequency c.precision d sr f = angularFrequency c.precision d' sr f :=
    c.precision.eq_of_same (angularFrequency_same _ d d' sr f)
      (angularFrequency_not_nan _ d sr f hf hsr)
  simp only [cookbook, hw0]
  exact normalise_same _ d d' (rawValues_same c d d' ty _ _ g (bandwidth_same _ d d' _ q) hg)

/-- A SET issued again right after it succeeded answers `OK` and leaves the same coefficients: nothing it reads has changed but
the draw number. -/
theorem execSet_again {ty : FilterType} {f q g : FWord} {s t : State} (h : execSet ty f q g s = .next t)
    (hok : t.status = some .ok) :
    ∃ u, execSet ty f q g t = .next u ∧ u.status = some .ok ∧ t.coeffs.same s.params.precision u.coeffs := by
  obtain ⟨hp, hv, rfl⟩ := execSet_status_ok h hok
  exact ⟨_, execSet_ok ty f q g _ hp hv, rfl, cookbook_same s.params _ _ ty hv⟩

/-- Settles O41: the checks read no draw, and behind them a draw reaches NaN bit patterns only. -/
theorem deriveIsAFunctionOfItsOperands : Obligations.DeriveIsAFunctionOfItsOperands := by
  intro c d d' ty sr f q g
  refine ⟨?_, ?_, ?_⟩
  · rw [derive_eq_none_iff, derive_eq_none_iff]
  · intro r r' hr hr'
    obtain ⟨hv, rfl⟩ := (derive_eq_some_iff ..).mp hr
    obtain ⟨-, rfl⟩ := (derive_eq_some_iff ..).mp hr'
    exact cookbook_same c d d' ty hv
  · intro s t h hok
    simp only [exec_setInstr] at h ⊢
    exact execSet_again h hok

end Sys2Proof.Machine
end

section
/-! SET and the history, 41_configuration_commands.md R119: everything a SET can answer, the state it leaves alone, and the first
output of the burst that follows it. -/

namespace Sys2Proof.Machine

/-! ### What a SET leaves unchanged -/

/-- The two kinds of state a SET leads to: a failure with no effect but its status (R151), or the stored results (R107). -/
theorem execSet_next_cases {ty : FilterType} {f q g : FWord} {s t : State} (h : execSet ty f q g s = .next t) :
    (∃ e, e ≠ .ok ∧ t = { s with response := some ⟨e, []⟩ }) ∨
    (∃ c, t = { s with coeffs := c, configured := true, draws := s.draws + 1, response := some ⟨.ok, []⟩ }) := by
  by_cases hp : s.prepared = true
  · by_cases hv : validOperands s.params.precision s.sr f q g = true
    · rw [execSet_ok _ _ _ _ _ hp hv, Host.Outcome.next.injEq] at h
      exact .inr ⟨_, h.symm⟩
    · rw [execSet_invalid _ _ _ _ _ hp (Bool.eq_false_of_not_eq_true hv), Host.Outcome.next.injEq] at h
      exact .inl ⟨.invalidParameter, by decide, h.symm⟩
  · rw [execSet_unprepared _ _ _ _ _ (Bool.eq_false_of_not_eq_true hp), Host.Outcome.next.injEq] at h
    exact .inl ⟨.notPrepared, by decide, h.symm⟩

/-- A SET, successful or not, writes none of these (R119). -/
theorem execSet_frame {ty : FilterType} {f q g : FWord} {s t : State} (h : execSet ty f q g s = .next t) :
    t.history = s.history ∧ t.sr = s.sr ∧ t.prepared = s.prepared ∧ t.params = s.params ∧ t.pending = s.pending ∧
      t.inBuf = s.inBuf ∧ t.outBuf = s.outBuf ∧ t.placement = s.placement := by
  rcases execSet_next_cases h with ⟨e, -, rfl⟩ | ⟨c, rfl⟩ <;> exact ⟨rfl, rfl, rfl, rfl, rfl, rfl, rfl, rfl⟩

/-- After a SET that answers `OK` the block is in mode Configured (R32). -/
theorem execSet_ok_mode {ty : FilterType} {f q g : FWord} {s t : State} (h : execSet ty f q g s = .next t)
    (hok : t.status = some .ok) : t.prepared = true ∧ t.configured = true := by
  obtain ⟨hp, -, rfl⟩ := execSet_status_ok h hok
  exact ⟨hp, rfl⟩

/-! ### The first output of a burst -/

theorem State.inSample_zero (s : State) {x : FWord} {rest : List FWord} (h : s.inBuf = x :: rest) :
    s.inSample 0 = s.params.precision.cut x := by
  simp [State.inSample, h]

/-- Under `DF1` a sample step's output is the recurrence on the history as it stands (R122). -/
theorem State.sampleOut_df1 (s : State) (n : Nat) {x1 x2 y1 y2 : FWord} (h : s.history = .df1 x1 x2 y1 y2) :
    s.sampleOut n = recur s.params.precision (Config.nanBits s.draws) s.coeffs (s.inSample n) x1 x2 y1 y2 := by
  simp only [State.sampleOut, h, sectionOut]

/-- A burst that moves a sample answers `OK`, and its first output is the one its starting state gives (R50). -/
theorem execProcess_first_output (a : Len) (s : State) (hp : s.prepared = true) (hc : s.configured = true)
    (hpl : s.placement ≠ .partialOverlap) (ha : a ≠ 0#32) :
    ∃ u ys, execProcess a a s = .next u ∧ u.response = some ⟨.ok, s.sampleOut 0 :: ys⟩ := by
  obtain ⟨k, hk⟩ : ∃ k, a.toNat = k + 1 := Nat.exists_eq_succ_of_ne_zero (fun h0 => ha (BitVec.eq_of_toNat_eq h0))
  refine ⟨_, (burst k 1 (s.sampleStep 0)).2, execProcess_ok a s hp hc (.inl hpl), ?_⟩
  rw [State.answer_response, hk, burst_succ]

/-- Settles O40: a SET leaves the history alone, and what it does write puts the block in mode Configured, so that the next burst
starts with the new coefficients on the old history. -/
theorem setKeepsTheHistory : Obligations.SetKeepsTheHistory := by
  intro s t ty f q g h
  rw [exec_setInstr] at h
  obtain ⟨hhist, hsr, hprep, hparams, hpend, hin, hout, hplace⟩ := execSet_frame h
  refine ⟨hhist, hsr, hprep, hparams, hpend, hin, hout, hplace, ?_⟩
  intro x1 x2 y1 y2 x rest a hdf1 hok hbuf hpl ha
  obtain ⟨hp, hc⟩ := execSet_ok_mode h hok
  obtain ⟨u, ys, hu, hresp⟩ := execProcess_first_output a t hp hc (hplace ▸ hpl) ha
  have hfirst : t.sampleOut 0 = recur s.params.precision (Config.nanBits t.draws) t.coeffs (s.params.precision.cut x)
      x1 x2 y1 y2 := by
    rw [t.sampleOut_df1 0 (hhist.trans hdf1), t.inSample_zero (hin.trans hbuf), hparams]
  exact ⟨u, _, ys, hu, hfirst ▸ hresp⟩

end Sys2Proof.Machine
end

section
/-! PROCESS and the recurrence section, 42_process_section.md: the burst of one sample and its step (R122), and the failing
PROCESS, which reads no sample and writes no register (R128). -/

namespace Sys2Proof.Machine

/-- Under `DF1` a sample step shifts the history: `x` and the output go in, the old `x1` and `y1` move on (R122). -/
theorem State.sampleStep_history_df1 (s : State) (n : Nat) {x1 x2 y1 y2 : FWord} (h : s.history = .df1 x1 x2 y1 y2) :
    (s.sampleStep n).history = .df1 (s.inSample n) x1 (s.sampleOut n) y1 := by
  simp only [State.sampleStep_history, h, sectionNext]

/-- A first element that is a word of the precision is the sample that step 0 reads (R46). -/
theorem State.inSample_zero_of_fits (s : State) {x : FWord} {rest : List FWord} (h : s.inBuf = x :: rest)
    (hx : s.params.precision.fits x = true) : s.inSample 0 = x := by
  rw [s.inSample_zero h, s.params.precision.cut_of_fits x hx]

/-- A PROCESS of one sample is sample step 0, answered with its output. -/
theorem execProcess_one (s : State) (hp : s.prepared = true) (hc : s.configured = true)
    (hpl : s.placement ≠ .partialOverlap) :
    execProcess 1#32 1#32 s = .next ((s.sampleStep 0).answer [s.sampleOut 0]) :=
  execProcess_ok 1#32 s hp hc (.inl hpl)

/-- Settles O47: the burst is one sample step, whose output and history are both made from the registers as they stood before
it. -/
theorem directFormStepShiftsTheHistory : Obligations.DirectFormStepShiftsTheHistory := by
  intro s x x1 x2 y1 y2 rest hp hc hpl hdf1 hbuf hx
  have hin : s.inSample 0 = x := s.inSample_zero_of_fits hbuf hx
  have hout : s.sampleOut 0 = recur s.params.precision (Config.nanBits s.draws) s.coeffs x x1 x2 y1 y2 := by
    rw [s.sampleOut_df1 0 hdf1, hin]
  have hhist : (s.sampleStep 0).history = .df1 x x1 (s.sampleOut 0) y1 := by
    rw [s.sampleStep_history_df1 0 hdf1, hin]
  rw [hout] at hhist
  exact ⟨_, Config.nanBits s.draws, execProcess_one s hp hc hpl, hhist, by rw [State.answer_response, hout]⟩

/-- Settles O51: the flags and the lengths alone choose the error, whatever `IN` holds, and `raise` writes the response only. -/
theorem failingProcessIsWhole : Obligations.FailingProcessIsWhole := by
  intro a b s hfail
  by_cases hp : s.prepared = true
  · by_cases hc : s.configured = true
    · have hl : a ≠ b := by simpa [hp, hc] using hfail
      exact ⟨.lengthMismatch, by decide, fun buf => execProcess_mismatch a b { s with inBuf := buf } hp hc hl⟩
    · exact ⟨.notConfigured, by decide,
        fun buf => execProcess_unconfigured a b { s with inBuf := buf } hp (Bool.eq_false_of_not_eq_true hc)⟩
  · exact ⟨.notPrepared, by decide,
      fun buf => execProcess_unprepared a b { s with inBuf := buf } (Bool.eq_false_of_not_eq_true hp)⟩

end Sys2Proof.Machine
end

section
/-! Errors, 60_exceptions.md: a failing command writes the response only (R151), and each error class is raised by its commands in
its modes and by nothing else (R141, R142, R144). -/

namespace Sys2Proof.Machine

/-! ### All or nothing (R151) -/

@[simp] theorem State.answer_status (s : State) (ys : List FWord) : (s.answer ys).status = some .ok := rfl

/-- Settles O23: of the five kinds of state a command can lead to, the four successes answer `OK`. -/
theorem failingCommandsChangeNothing : Obligations.FailingCommandsChangeNothing := by
  intro i s t h hfail
  rcases exec_next_cases h with ⟨e, -, ht⟩ | ⟨_, -, -, rfl⟩ | ⟨_, _, _, _, -, -, -, rfl⟩ | ⟨_, -, -, -, -, rfl⟩ | ⟨-, rfl⟩
  case inl => exact ⟨e, ht⟩
  case inr.inl | inr.inr.inl | inr.inr.inr.inr => exact absurd rfl hfail
  case inr.inr.inr.inl => exact absurd (State.answer_status _ _) hfail

/-! ### Which command raises which class -/

theorem setInstr_ne_of_filterType_none {i : Instr} (hi : i.filterType = none) (ty : FilterType) (f q g : FWord) :
    setInstr ty f q g ≠ i := by
  rintro rfl
  simp at hi

/-- Settles O24: `prepared` is the first test of SET and of PROCESS, and among the causes of an error only its failure gives
`NotPrepared`. -/
theorem notPreparedIsRaisedBySetAndProcess : Obligations.NotPreparedIsRaisedBySetAndProcess := by
  intro s
  constructor
  · intro hp
    constructor
    · intro ty f q g
      rw [exec_setInstr]
      exact execSet_unprepared ty f q g s hp
    · exact fun a b => execProcess_unprepared a b s hp
  · intro i t h ht
    obtain ⟨-, ⟨-, hp, hi⟩ | ⟨⟨⟩, -⟩ | ⟨⟨⟩, -⟩ | ⟨⟨⟩, -⟩⟩ := exec_error_cases h ht (by decide)
    rcases hi with ⟨ty, f, q, g, rfl⟩ | ⟨a, b, rfl⟩
    · exact ⟨hp, setInstr_ne_of_filterType_none rfl ty f q g, fun _ => setInstr_ne_of_filterType_none rfl ty f q g⟩
    · exact ⟨hp, Instr.noConfusion, fun _ => Instr.noConfusion⟩

/-- Settles O25: `configured` is the second test of PROCESS and no test of any other command; a SET that failed wrote nothing
(R151). -/
theorem notConfiguredIsRaisedByProcessOnly : Obligations.NotConfiguredIsRaisedByProcessOnly := by
  intro s
  refine ⟨fun hp hc a b => execProcess_unconfigured a b s hp hc, ?_, ?_⟩
  · intro i t h ht
    obtain ⟨-, ⟨⟨⟩, -⟩ | ⟨-, hp, hc, hi⟩ | ⟨⟨⟩, -⟩ | ⟨⟨⟩, -⟩⟩ := exec_error_cases h ht (by decide)
    exact ⟨hi, hp, hc⟩
  · intro ty f q g t h hfail
    obtain ⟨e, rfl⟩ := failingCommandsChangeNothing _ s t h hfail
    rfl

/-- Settles O26: the lengths are the third test of PROCESS, made once both flags are 1, and no test of any other command. -/
theorem lengthMismatchIsRaisedByProcessOnly : Obligations.LengthMismatchIsRaisedByProcessOnly := by
  intro s
  constructor
  · exact fun hp hc a b hl => execProcess_mismatch a b s hp hc hl
  · intro i t h ht
    obtain ⟨-, ⟨⟨⟩, -⟩ | ⟨⟨⟩, -⟩ | ⟨⟨⟩, -⟩ | ⟨-, hp, hc, hi⟩⟩ := exec_error_cases h ht (by decide)
    exact ⟨hi, hp, hc⟩

end Sys2Proof.Machine
end

section
/-! The packed words, 30_encoding.md: the eight SET rows are one row with a type code, and `encode` and `decode` undo each other
field by field. -/

namespace Sys2Proof

/-! ### The rows, the SET rows taken together -/

/-- A command is a PREPARE, a SET of some type, a PROCESS or a RESET (R56). -/
theorem Instr.row_cases (i : Instr) :
    (∃ rate, i = .prepare rate) ∨ (∃ t f q g, i = setInstr t f q g) ∨ (∃ a b, i = .process a b) ∨ i = .reset := by
  cases hi : i.filterType with
  | some t =>
    obtain ⟨f, q, g, rfl, -⟩ := Machine.exec_of_filterType i t hi
    exact .inr (.inl ⟨t, f, q, g, rfl⟩)
  | none =>
    cases i with
    | prepare rate => exact .inl ⟨rate, rfl⟩
    | process a b => exact .inr (.inr (.inl ⟨a, b, rfl⟩))
    | reset => exact .inr (.inr (.inr rfl))
    | _ => simp [Instr.filterType] at hi

/-- The code of a filter type in `H[4:2]` (R55, D3). -/
def FilterType.code : FilterType → Nat
  | .lowPass => 0
  | .highPass => 1
  | .bandPass => 2
  | .notch => 3
  | .peak => 4
  | .lowShelf => 5
  | .highShelf => 6
  | .allPass => 7

theorem FilterType.code_lt (t : FilterType) : t.code < 8 := by cases t <;> decide

/-- `encode` writes the type's code. -/
theorem encode_setInstr (p : Precision) (t : FilterType) (f q g : FWord) :
    encode p (setInstr t f q g) = encodeSet p t.code f q g := by
  cases t <;> rfl

/-- `decode` reads the type's code back. -/
theorem decodeType_code (t : FilterType) :
    decodeType (decide (t.code / 4 % 2 = 1)) (decide (t.code / 2 % 2 = 1)) (decide (t.code % 2 = 1)) = t := by
  cases t <;> rfl

/-- The type read from the header bits `n` has their value for its code. -/
theorem code_decodeType (n : Nat) :
    (decodeType (decide (n / 4 % 2 = 1)) (decide (n / 2 % 2 = 1)) (decide (n % 2 = 1))).code = n % 8 := by
  have hlt : n % 8 < 8 := Nat.mod_lt _ (by decide)
  rw [decodeType_eq]
  generalize n % 8 = m at hlt ⊢
  interval_cases m <;> rfl

theorem wf_setInstr (p : Precision) (t : FilterType) (f q g : FWord) :
    (setInstr t f q g).wf p = true ↔ p.fits f = true ∧ p.fits q = true ∧ p.fits g = true := by
  cases t <;> simp [setInstr, Instr.wf, and_assoc]

theorem packedWidth_setInstr (p : Precision) (t : FilterType) (f q g : FWord) :
    (setInstr t f q g).packedWidth p = 5 + 3 * p.width := by
  cases t <;> rfl

/-! ### The values of the packed words -/

theorem encode_prepare_toNat (p : Precision) (rate : Rate) : (encode p (.prepare rate)).toNat = rate.toNat * 32 := by
  change (BitVec.ofNat 197 (rate.toNat * 2 ^ 5 + 0)).toNat = _
  simp only [BitVec.toNat_ofNat, Nat.reducePow]
  omega

theorem encode_process_toNat (p : Precision) (a b : Len) :
    (encode p (.process a b)).toNat = (b.toNat * 2 ^ 32 + a.toNat) * 32 + 2 := by
  change (BitVec.ofNat 197 ((b.toNat * 2 ^ 32 + a.toNat) * 2 ^ 5 + 2)).toNat = _
  simp only [BitVec.toNat_ofNat, Nat.reducePow]
  omega

theorem encode_reset_toNat (p : Precision) : (encode p .reset).toNat = 3 := rfl

/-! ### Decoding what was encoded -/

theorem decode_encode_prepare (p : Precision) (rate : Rate) : decode p (encode p (.prepare rate)) = .prepare rate := by
  have hn := encode_prepare_toNat p rate
  rw [decode_prepare p _ (by omega), cmdField, hn]
  congr 1
  apply BitVec.eq_of_toNat_eq
  simp only [BitVec.toNat_ofNat, Nat.reducePow]
  omega

theorem decode_encode_process (p : Precision) (a b : Len) : decode p (encode p (.process a b)) = .process a b := by
  have hn := encode_process_toNat p a b
  rw [decode_process p _ (by omega), cmdField, cmdField, hn]
  congr 1 <;> apply BitVec.eq_of_toNat_eq <;> simp only [BitVec.toNat_ofNat, Nat.reducePow] <;> omega

theorem decode_encode_set (p : Precision) (t : FilterType) (f q g : FWord) (hwf : (setInstr t f q g).wf p = true) :
    decode p (encode p (setInstr t f q g)) = setInstr t f q g := by
  obtain ⟨hf, hq, hg⟩ := (wf_setInstr p t f q g).mp hwf
  rw [encode_setInstr, decode_encodeSet p t.code f q g t.code_lt hf hq hg, decodeType_code]

/-- Settles O2, row by row: each field of the packed word reads back as the operand written there. -/
theorem decodeUndoesEncode : Obligations.DecodeUndoesEncode := by
  intro p i hwf
  rcases i.row_cases with ⟨rate, rfl⟩ | ⟨t, f, q, g, rfl⟩ | ⟨a, b, rfl⟩ | rfl
  · exact decode_encode_prepare p rate
  · exact decode_encode_set p t f q g hwf
  · exact decode_encode_process p a b
  · exact decode_reset p _ (by rw [encode_reset_toNat])

/-! ### Encoding what was decoded -/

theorem mod_four_cases (n : Nat) : n % 4 = 0 ∨ n % 4 = 1 ∨ n % 4 = 2 ∨ n % 4 = 3 := by omega

theorem encode_decode_prepare (p : Precision) (w : Cmd) (h : w.toNat % 4 = 0) (hlt : w.toNat < 2 ^ 37)
    (hign : w.toNat / 4 % 8 = 0) : encode p (decode p w) = w := by
  apply BitVec.eq_of_toNat_eq
  rw [decode_prepare p w h, encode_prepare_toNat]
  simp only [cmdField, BitVec.toNat_ofNat, Nat.reducePow] at hlt ⊢
  omega

theorem encode_decode_process (p : Precision) (w : Cmd) (h : w.toNat % 4 = 2) (hlt : w.toNat < 2 ^ 69)
    (hign : w.toNat / 4 % 8 = 0) : encode p (decode p w) = w := by
  apply BitVec.eq_of_toNat_eq
  rw [decode_process p w h, encode_process_toNat]
  simp only [cmdField, BitVec.toNat_ofNat, Nat.reducePow] at hlt ⊢
  omega

theorem encode_decode_set (p : Precision) (w : Cmd) (h : w.toNat % 4 = 1) (hlt : w.toNat < 2 ^ (5 + 3 * p.width)) :
    encode p (decode p w) = w := by
  apply BitVec.eq_of_toNat_eq
  rw [decode_set p w h, encode_setInstr, code_decodeType, encodeSet_toNat p _ _ _ _ (Nat.mod_lt _ (by decide))]
  simp only [cmdField, BitVec.toNat_ofNat]
  cases p <;> simp only [Precision.width, Nat.reducePow, Nat.reduceMul, Nat.reduceAdd] at hlt ⊢ <;> omega

theorem encode_decode_reset (p : Precision) (w : Cmd) (h : w.toNat % 4 = 3) (hlt : w.toNat < 2 ^ 5)
    (hign : w.toNat / 4 % 8 = 0) : encode p (decode p w) = w := by
  apply BitVec.eq_of_toNat_eq
  rw [decode_reset p w h, encode_reset_toNat]
  omega

/-- An encoding has no bit above its format's width (R57). -/
theorem encode_lt (p : Precision) (i : Instr) : (encode p i).toNat < 2 ^ i.packedWidth p := by
  rcases i.row_cases with ⟨rate, rfl⟩ | ⟨t, f, q, g, rfl⟩ | ⟨a, b, rfl⟩ | rfl
  · rw [encode_prepare_toNat, Instr.packedWidth]
    omega
  · rw [encode_setInstr, packedWidth_setInstr]
    exact encodeSet_lt p t.code f q g t.code_lt
  · rw [encode_process_toNat, Instr.packedWidth]
    omega
  · rw [encode_reset_toNat, Instr.packedWidth]
    decide

/-- Settles O3: within the format's width a word is its fields, and those are what `decode` reads and `encode` writes. -/
theorem encodeUndoesDecode : Obligations.EncodeUndoesDecode := by
  intro p
  refine ⟨fun w hlt hign => ?_, encode_lt p⟩
  rw [filterType_decode_eq_none] at hign
  rcases mod_four_cases w.toNat with h | h | h | h
  · rw [decode_prepare p w h] at hlt
    exact encode_decode_prepare p w h hlt (hign (by omega))
  · rw [decode_set p w h, packedWidth_setInstr] at hlt
    exact encode_decode_set p w h hlt
  · rw [decode_process p w h] at hlt
    exact encode_decode_process p w h hlt (hign (by omega))
  · rw [decode_reset p w h] at hlt
    exact encode_decode_reset p w h hlt (hign (by omega))

/-! ### The header -/

theorem cmdField_congr {v w : Cmd} (h : v.toNat / 32 = w.toNat / 32) (lo len : Nat) (hlo : 5 ≤ lo) :
    cmdField v lo len = cmdField w lo len := by
  obtain ⟨k, rfl⟩ := Nat.exists_eq_add_of_le hlo
  have hsplit : ∀ n : Nat, n / 2 ^ (5 + k) = n / 32 / 2 ^ k := fun n => by
    rw [pow_add, ← Nat.div_div_eq_div_mul]
    rfl
  rw [cmdField, cmdField, hsplit, hsplit, h]

/-- Settles O4: outside SET `decode` reads `op` and the fields above the header, and nothing of the bits between. -/
theorem ignoredTypeBitsChangeNothing : Obligations.IgnoredTypeBitsChangeNothing := by
  intro p v w hset hop habove
  rw [filterType_decode_eq_none] at hset
  have h5 := cmdField_congr habove 5 32 (by decide)
  have h37 := cmdField_congr habove 37 32 (by decide)
  rcases mod_four_cases v.toNat with h | h | h | h
  · rw [decode_prepare p v h, decode_prepare p w (hop ▸ h), h5]
  · exact absurd h hset
  · rw [decode_process p v h, decode_process p w (hop ▸ h), h5, h37]
  · rw [decode_reset p v h, decode_reset p w (hop ▸ h)]

/-- A word with the header of type `t` decodes to that type's SET. -/
theorem decode_header_set (p : Precision) (w : Cmd) (t : FilterType) (h : w.toNat % 32 = t.code * 4 + 1) :
    ∃ f q g, decode p w = setInstr t f q g := by
  have hlt := t.code_lt
  have e4 : w.toNat / 4 / 4 % 2 = t.code / 4 % 2 := by omega
  have e2 : w.toNat / 4 / 2 % 2 = t.code / 2 % 2 := by omega
  have e1 : w.toNat / 4 % 2 = t.code % 2 := by omega
  rw [decode_set p w (by omega), e4, e2, e1, decodeType_code]
  exact ⟨_, _, _, rfl⟩

/-- Settles O1: `op` chooses the format, and under SET the type bits choose the type. -/
theorem headerSelectsTheRow : Obligations.HeaderSelectsTheRow := fun p w =>
  ⟨fun h => ⟨_, decode_prepare p w h⟩,
    decode_header_set p w .lowPass, decode_header_set p w .highPass, decode_header_set p w .bandPass,
    decode_header_set p w .notch, decode_header_set p w .peak, decode_header_set p w .lowShelf,
    decode_header_set p w .highShelf, decode_header_set p w .allPass,
    fun h => ⟨_, _, decode_process p w h⟩, decode_reset p w⟩

/-- Settles O5: seven words of the test vectors, each evaluated. -/
theorem printedWordsDecode : Obligations.PrintedWordsDecode := by
  refine ⟨?_, ?_, ?_, ?_, ?_, ?_, ?_⟩ <;> decide

end Sys2Proof
end

section
/-! The step and its invariants, 10_state.md R34 to R37, R35 and 70_reset_and_hazards.md R165: the three kinds of step, when `exec`
answers, and what a step keeps. -/

namespace Sys2Proof.Machine

/-! ### The three kinds of step -/

theorem step_idle {s : State} (h : s.pending = []) : step s = .next s := by
  cases s
  cases h
  rfl

theorem step_rst {s : State} {rest : List PortEvent} (h : s.pending = .rst :: rest) :
    step s = .next (s.assertRst rest) := by
  cases s
  cases h
  rfl

theorem step_command {s : State} {c : Command} {rest : List PortEvent} (h : s.pending = .command c :: rest) :
    step s = exec (decode s.params.precision c.word) (s.accept c rest) := by
  cases s
  cases h
  rfl

/-- Settles O8. -/
theorem rstReturnsToTheResetState : Obligations.RstReturnsToTheResetState := fun _ _ h => step_rst h

/-- Settles O9. -/
theorem stepRunsTheDecodedCommand : Obligations.StepRunsTheDecodedCommand := by
  rintro s c rest i h rfl
  exact step_command h

/-- Settles O10. -/
theorem idleStepChangesNothing : Obligations.IdleStepChangesNothing := fun _ h => step_idle h

/-- Settles O7: the reset state written out, its mode by `mode_eq_unprepared`. -/
theorem resetLeavesFlagsAndRegistersClear : Obligations.ResetLeavesFlagsAndRegistersClear :=
  ⟨fun c => ⟨(State.mode_eq_unprepared _).mpr (State.resetWith_prepared c), State.resetWith_prepared c,
    State.resetWith_configured c, State.resetWith_sr c, State.resetWith_coeffs c, State.resetWith_history c,
    State.resetWith_pending c, State.resetWith_response c⟩, rfl⟩

/-! ### When a step answers -/

theorem not_refused_of_next {o : Result} {t : State} (h : o = .next t) (r : Refusal) : o ≠ .refused r := by
  simp [h]

/-- The one refusal of `exec` (20_memory.md R43), and what it takes. -/
theorem exec_answers (i : Instr) (s : State) :
    ((∃ t, exec i s = .next t) ∨ exec i s = .refused .partialOverlap) ∧
      (exec i s = .refused .partialOverlap ↔ ∃ n, i = .process n n ∧ n ≠ 0#32 ∧ s.prepared = true ∧
        s.configured = true ∧ s.placement = .partialOverlap) := by
  rcases exec_cases i s with ⟨e, -, hx⟩ | ⟨r, -, -, hx⟩ | ⟨ty, f, q, g, -, -, -, hx⟩ | ⟨a, -, -, -, -, hx⟩ | ⟨-, hx⟩ |
    ⟨a, hi, hp, hc, ho, ha, hx⟩
  case inr.inr.inr.inr.inr => exact ⟨.inr hx, fun _ => ⟨a, hi, ha, hp, hc, ho⟩, fun _ => hx⟩
  all_goals
    refine ⟨.inl ⟨_, hx⟩, ⟨fun h => absurd h (not_refused_of_next hx _), ?_⟩⟩
    rintro ⟨n, rfl, hn, hp, hc, ho⟩
    exact execProcess_overlap n s hp hc ho hn

/-- Settles O11: an idle step and `rst` always answer, a command answers as `exec_answers` says. -/
theorem everyStepAnswersButPartialOverlap : Obligations.EveryStepAnswersButPartialOverlap := by
  intro s
  cases hpend : s.pending with
  | nil => exact ⟨.inl ⟨_, step_idle hpend⟩, ⟨fun h => absurd h (not_refused_of_next (step_idle hpend) _),
        by rintro ⟨_, _, _, ⟨⟩, _⟩⟩⟩
  | cons e rest =>
    cases e with
    | rst => exact ⟨.inl ⟨_, step_rst hpend⟩, ⟨fun h => absurd h (not_refused_of_next (step_rst hpend) _),
        by rintro ⟨_, _, _, ⟨⟩, _⟩⟩⟩
    | command c =>
      obtain ⟨hanswer, hrefuse⟩ := exec_answers (decode s.params.precision c.word) (s.accept c rest)
      rw [step_command hpend]
      refine ⟨hanswer, hrefuse.trans ⟨?_, ?_⟩⟩
      · rintro ⟨n, hi, hn, hp, hc, ho⟩
        exact ⟨c, rest, n, rfl, ho, hi, hn, hp, hc⟩
      · rintro ⟨c', rest', n, heq, ho, hi, hn, hp, hc⟩
        cases heq
        exact ⟨n, hi, hn, hp, hc, ho⟩

/-! ### What a burst keeps, field by field -/

@[simp] theorem burst_params (k n : Nat) (s : State) : (burst k n s).1.params = s.params := by
  obtain ⟨h, -⟩ := burst_frame k n s
  exact h

@[simp] theorem burst_coeffs (k n : Nat) (s : State) : (burst k n s).1.coeffs = s.coeffs := by
  obtain ⟨-, h, -⟩ := burst_frame k n s
  exact h

@[simp] theorem burst_sr (k n : Nat) (s : State) : (burst k n s).1.sr = s.sr := by
  obtain ⟨-, -, h, -⟩ := burst_frame k n s
  exact h

@[simp] theorem burst_prepared (k n : Nat) (s : State) : (burst k n s).1.prepared = s.prepared := by
  obtain ⟨-, -, -, h, -⟩ := burst_frame k n s
  exact h

@[simp] theorem burst_configured (k n : Nat) (s : State) : (burst k n s).1.configured = s.configured := by
  obtain ⟨-, -, -, -, h, -⟩ := burst_frame k n s
  exact h

@[simp] theorem burst_history_form (k n : Nat) (s : State) : (burst k n s).1.history.form = s.history.form := by
  obtain ⟨-, -, -, -, -, -, -, -, h, -⟩ := burst_frame k n s
  exact h

/-! ### From commands to steps -/

/-- What taking a command off the port, `rst` and every command keep, every step keeps. -/
theorem step_keeps {P : State → Prop} (haccept : ∀ s c rest, P s → P (State.accept s c rest))
    (hrst : ∀ s rest, P s → P (State.assertRst s rest)) (hexec : ∀ i s t, P s → exec i s = .next t → P t)
    (s t : State) (hs : P s) (h : step s = .next t) : P t := by
  rcases step_next_cases h with ⟨-, rfl⟩ | ⟨rest, -, rfl⟩ | ⟨c, rest, -, hx⟩
  · exact hs
  · exact hrst s rest hs
  · exact hexec _ _ _ (haccept s c rest hs) hx

theorem exec_params {i : Instr} {s t : State} (h : exec i s = .next t) : t.params = s.params := by
  rcases exec_next_cases h with ⟨_, -, rfl⟩ | ⟨_, -, -, rfl⟩ | ⟨_, _, _, _, -, -, -, rfl⟩ | ⟨a, -, -, -, -, rfl⟩ | ⟨-, rfl⟩
  case inr.inr.inr.inl => exact burst_params _ _ s
  all_goals rfl

/-- Settles O12. -/
theorem noStepChangesTheParameters : Obligations.NoStepChangesTheParameters := by
  intro s t h
  exact step_keeps (P := fun u => u.params = s.params) (fun _ _ _ hu => hu) (fun _ _ hu => hu)
    (fun _ _ _ hu hx => (exec_params hx).trans hu) s t rfl h

/-! ### R35 (i), (ii), and the form of the history -/

theorem State.legal_iff (s : State) :
    s.legal = true ↔ (s.configured = true → s.prepared = true) ∧ (s.prepared = true → s.sr ≠ 0#32) ∧
      s.history.form = s.params.sectionForm := by
  have hsr : 1 ≤ s.sr.toNat ↔ s.sr ≠ 0#32 := by
    rw [Nat.one_le_iff_ne_zero, ne_eq, ne_eq, ← BitVec.toNat_inj]
    rfl
  cases hc : s.configured <;> cases hp : s.prepared <;> simp [State.legal, hc, hp, hsr]

theorem exec_legal (i : Instr) (s t : State) (hs : s.legal = true) (h : exec i s = .next t) : t.legal = true := by
  rw [State.legal_iff] at hs ⊢
  obtain ⟨hconf, hrate, hform⟩ := hs
  rcases exec_next_cases h with ⟨_, -, rfl⟩ | ⟨rate, -, hr, rfl⟩ | ⟨_, _, _, _, -, hp, -, rfl⟩ | ⟨a, -, -, -, -, rfl⟩ | ⟨-, rfl⟩
  · exact ⟨hconf, hrate, hform⟩
  · exact ⟨fun _ => rfl, fun _ => hr, History.zero_form _⟩
  · exact ⟨fun _ => hp, hrate, hform⟩
  · simpa using ⟨hconf, hrate, hform⟩
  · exact ⟨hconf, hrate, History.zero_form _⟩

theorem State.assertRst_legal (s : State) (rest : List PortEvent) : (s.assertRst rest).legal = true := by
  rw [State.legal_iff]
  simp

/-- Settles O14: a SET succeeds only when `prepared`, a PREPARE only with a rate that is not 0, and each writes a history of the
form that the parameters name. -/
theorem everyStepKeepsLegalStates : Obligations.EveryStepKeepsLegalStates :=
  step_keeps (P := fun s => s.legal = true) (fun _ _ _ h => h) (fun s rest _ => s.assertRst_legal rest) exec_legal

/-! ### R35 (iii) -/

/-- The invariant reads the parameters, the coefficients, `sr` and `configured` only. -/
theorem State.FromEngine.congr {s t : State} (h : s.FromEngine) (hparams : t.params = s.params)
    (hcoeffs : t.coeffs = s.coeffs) (hsr : t.sr = s.sr) (hconf : t.configured = s.configured) : t.FromEngine := by
  unfold State.FromEngine at *
  rwa [hparams, hcoeffs, hsr, hconf]

theorem exec_fromEngine (i : Instr) (s t : State) (hs : s.FromEngine) (h : exec i s = .next t) : t.FromEngine := by
  rcases exec_next_cases h with ⟨_, -, rfl⟩ | ⟨rate, -, -, rfl⟩ | ⟨ty, f, q, g, -, -, hv, rfl⟩ | ⟨a, -, -, -, -, rfl⟩ | ⟨-, rfl⟩
  · exact hs.congr rfl rfl rfl rfl
  · intro hconf
    have hkeep : s.params.prepareClearsConfig = false ∧ s.configured = true := by
      simpa [State.configuredAfterPrepare] using hconf
    obtain ⟨hclears, hconf⟩ := hkeep
    obtain ⟨d, ty, sr, f, q, g, hderive, -⟩ := hs hconf
    exact ⟨d, ty, sr, f, q, g, hderive, fun htrue => nomatch hclears.symm.trans htrue⟩
  · exact fun _ => ⟨_, ty, s.sr, f, q, g, (derive_eq_some_iff ..).mpr ⟨hv, rfl⟩, fun _ => rfl⟩
  · exact hs.congr (by simp) (by simp) (by simp) (by simp)
  · exact hs.congr rfl rfl rfl rfl

/-- Settles O15: only a successful SET writes coefficients, with one `derive` at the present `sr`; a PREPARE that changes `sr`
also clears `configured` when `PREPARE_CLEARS_CONFIG` is true. -/
theorem everyStepKeepsCoefficientsFromOneDerive : Obligations.EveryStepKeepsCoefficientsFromOneDerive :=
  step_keeps (P := State.FromEngine) (fun _ _ _ h => h.congr rfl rfl rfl rfl) (fun _ _ _ h => nomatch h) exec_fromEngine

/-! ### Words of `W` bits -/

theorem State.wordsFit_iff (s : State) :
    s.wordsFit = true ↔ s.coeffs.all s.params.precision.fits = true ∧ s.history.all s.params.precision.fits = true := by
  simp [State.wordsFit]

theorem History.zero_fits (p : Precision) (f : SectionForm) : (History.zero f).all p.fits = true := by
  cases f <;> simp [History.zero, History.all]

theorem cookbook_fits (c : Params) (d : Draws) (ty : FilterType) (sr : Rate) (f q g : FWord) :
    (cookbook c d ty sr f q g).all c.precision.fits = true := by
  simp [cookbook, normalise, Coeffs.all]

/-- A burst leaves a history of words of `W` bits: `In(n)` is cut to `W` bits and every operation gives `W` bits. -/
theorem burst_history_fits (k n : Nat) (s : State) (h : s.history.all s.params.precision.fits = true) :
    (burst k n s).1.history.all s.params.precision.fits = true := by
  induction k generalizing n s with
  | zero => exact h
  | succ k ih =>
    rw [burst_succ]
    exact ih (n + 1) (s.sampleStep n) (sectionNext_fits _ _ _ _ _ _ h (s.inSample_fits n) (sectionOut_fits _ _ _ _ _))

theorem exec_wordsFit (i : Instr) (s t : State) (hs : s.wordsFit = true) (h : exec i s = .next t) : t.wordsFit = true := by
  rw [State.wordsFit_iff] at hs ⊢
  obtain ⟨hcoeffs, hhist⟩ := hs
  rcases exec_next_cases h with ⟨_, -, rfl⟩ | ⟨rate, -, -, rfl⟩ | ⟨ty, f, q, g, -, -, -, rfl⟩ | ⟨a, -, -, -, -, rfl⟩ | ⟨-, rfl⟩
  · exact ⟨hcoeffs, hhist⟩
  · exact ⟨hcoeffs, History.zero_fits _ _⟩
  · exact ⟨cookbook_fits _ _ ty s.sr f q g, hhist⟩
  · simpa using ⟨hcoeffs, burst_history_fits a.toNat 0 s hhist⟩
  · exact ⟨hcoeffs, History.zero_fits _ _⟩

theorem State.assertRst_wordsFit (s : State) (rest : List PortEvent) : (s.assertRst rest).wordsFit = true := by
  rw [State.wordsFit_iff]
  exact ⟨by simp [Coeffs.all], History.zero_fits _ _⟩

/-- Settles O16. -/
theorem everyStepKeepsWordsOfWBits : Obligations.EveryStepKeepsWordsOfWBits :=
  step_keeps (P := fun s => s.wordsFit = true) (fun _ _ _ h => h) (fun s rest _ => s.assertRst_wordsFit rest) exec_wordsFit

/-- Settles O13: at reset both flags are 0 and every register is a zero. -/
theorem invariantsHoldAtReset : Obligations.InvariantsHoldAtReset := fun c =>
  ⟨(State.resetWith c).assertRst_legal [], (State.resetWith c).assertRst_wordsFit [], fun h => nomatch h⟩

end Sys2Proof.Machine
end

section
/-! The reset values of the registers cannot be observed, 10_state.md R36: a simulation between states that differ in registers
that no command reads before it has written them. -/

namespace Sys2Proof.Machine

/-- The second state differs from the first at most in registers that the flags keep from being read: the coefficients while
`configured` is 0 (60_exceptions.md R142), and the history and `sr` too while `prepared` is 0 (R141). -/
def State.Alike (s s' : State) : Prop :=
  s' = s ∨
  (s.configured = false ∧ ∃ c, s' = { s with coeffs := c }) ∨
  (s.prepared = false ∧ s.configured = false ∧ ∃ c h r, s' = { s with coeffs := c, history := h, sr := r })

theorem State.Alike.refl (s : State) : s.Alike s := .inl rfl

theorem State.Alike.unconfigured (s : State) (c : Coeffs) (hc : s.configured = false) : s.Alike { s with coeffs := c } :=
  .inr (.inl ⟨hc, c, rfl⟩)

theorem State.Alike.unprepared (s : State) (c : Coeffs) (h : History) (r : Rate) (hp : s.prepared = false)
    (hc : s.configured = false) : s.Alike { s with coeffs := c, history := h, sr := r } :=
  .inr (.inr ⟨hp, hc, c, h, r, rfl⟩)

/-- The simulation's conclusion: both outcomes are next states, with one response, and alike again. -/
def Result.Alike (a b : Result) : Prop :=
  ∃ t u, a = .next t ∧ b = .next u ∧ u.response = t.response ∧ t.Alike u

/-- An error leaves alike states alike. -/
theorem State.Alike.respond {s s' : State} (h : s.Alike s') {e : Status} {a b : Result}
    (ha : a = .next { s with response := some ⟨e, []⟩ }) (hb : b = .next { s' with response := some ⟨e, []⟩ }) :
    Result.Alike a b := by
  refine ⟨_, _, ha, hb, rfl, ?_⟩
  rcases h with rfl | ⟨hc, c, rfl⟩ | ⟨hp, hc, c, h, r, rfl⟩
  · exact .refl _
  · exact .unconfigured { s with response := some ⟨e, []⟩ } c hc
  · exact .unprepared { s with response := some ⟨e, []⟩ } c h r hp hc

theorem State.configuredAfterPrepare_of_not (s : State) (hc : s.configured = false) : s.configuredAfterPrepare = false := by
  simp [State.configuredAfterPrepare, hc]

theorem execPrepare_alike (rate : Rate) {s s' : State} (h : s.Alike s') :
    Result.Alike (execPrepare rate s) (execPrepare rate s') := by
  by_cases hr : rate = 0#32
  · subst hr
    exact h.respond (execPrepare_zero s) (execPrepare_zero s')
  · rw [execPrepare_ok _ _ hr, execPrepare_ok _ _ hr]
    refine ⟨_, _, rfl, rfl, rfl, ?_⟩
    rcases h with rfl | ⟨hc, c, rfl⟩ | ⟨hp, hc, c, h, r, rfl⟩
    · exact .refl _
    · exact .unconfigured _ c (s.configuredAfterPrepare_of_not hc)
    · exact .unconfigured _ c (s.configuredAfterPrepare_of_not hc)

theorem execReset_alike {s s' : State} (h : s.Alike s') : Result.Alike (execReset s) (execReset s') := by
  refine ⟨_, _, rfl, rfl, rfl, ?_⟩
  rcases h with rfl | ⟨hc, c, rfl⟩ | ⟨hp, hc, c, h, r, rfl⟩
  · exact .refl _
  · exact .unconfigured _ c hc
  · exact .unprepared _ c _ r hp hc

/-- With `configured = 0` no SET reads the coefficients, and one that writes them writes all five. -/
theorem execSet_alike_unconfigured (ty : FilterType) (f q g : FWord) (s : State) (c : Coeffs) (hc : s.configured = false) :
    Result.Alike (execSet ty f q g s) (execSet ty f q g { s with coeffs := c }) := by
  have halike := State.Alike.unconfigured s c hc
  by_cases hp : s.prepared = true
  · by_cases hv : validOperands s.params.precision s.sr f q g = true
    · exact ⟨_, _, execSet_ok ty f q g s hp hv, execSet_ok ty f q g { s with coeffs := c } hp hv, rfl, .refl _⟩
    · rw [Bool.not_eq_true] at hv
      exact halike.respond (execSet_invalid ty f q g s hp hv) (execSet_invalid ty f q g _ hp hv)
  · rw [Bool.not_eq_true] at hp
    exact halike.respond (execSet_unprepared ty f q g s hp) (execSet_unprepared ty f q g _ hp)

theorem execProcess_alike_unconfigured (a b : Len) (s : State) (c : Coeffs) (hc : s.configured = false) :
    Result.Alike (execProcess a b s) (execProcess a b { s with coeffs := c }) := by
  have halike := State.Alike.unconfigured s c hc
  by_cases hp : s.prepared = true
  · exact halike.respond (execProcess_unconfigured a b s hp hc) (execProcess_unconfigured a b _ hp hc)
  · rw [Bool.not_eq_true] at hp
    exact halike.respond (execProcess_unprepared a b s hp) (execProcess_unprepared a b _ hp)

/-- On alike states a command gives one outcome, or one response and alike states. With `prepared = 0` SET and PROCESS read no
register, and PREPARE writes those that then may be read. -/
theorem exec_alike (i : Instr) {s s' : State} (h : s.Alike s') :
    exec i s' = exec i s ∨ Result.Alike (exec i s) (exec i s') := by
  rcases i.row_cases with ⟨rate, rfl⟩ | ⟨ty, f, q, g, rfl⟩ | ⟨a, b, rfl⟩ | rfl
  · exact .inr (execPrepare_alike rate h)
  · rw [exec_setInstr, exec_setInstr]
    rcases h with rfl | ⟨hc, c, rfl⟩ | ⟨hp, hc, c, h, r, rfl⟩
    · exact .inl rfl
    · exact .inr (execSet_alike_unconfigured ty f q g s c hc)
    · exact .inr ((State.Alike.unprepared s c h r hp hc).respond (execSet_unprepared ty f q g s hp)
        (execSet_unprepared ty f q g _ hp))
  · change execProcess a b s' = execProcess a b s ∨ Result.Alike (execProcess a b s) (execProcess a b s')
    rcases h with rfl | ⟨hc, c, rfl⟩ | ⟨hp, hc, c, h, r, rfl⟩
    · exact .inl rfl
    · exact .inr (execProcess_alike_unconfigured a b s c hc)
    · exact .inr ((State.Alike.unprepared s c h r hp hc).respond (execProcess_unprepared a b s hp)
        (execProcess_unprepared a b _ hp))
  · exact .inr (execReset_alike h)

/-! ### Steps -/

theorem State.Alike.pending {s s' : State} (h : s.Alike s') : s'.pending = s.pending := by
  rcases h with rfl | ⟨-, c, rfl⟩ | ⟨-, -, c, h, r, rfl⟩ <;> rfl

theorem State.Alike.params {s s' : State} (h : s.Alike s') : s'.params = s.params := by
  rcases h with rfl | ⟨-, c, rfl⟩ | ⟨-, -, c, h, r, rfl⟩ <;> rfl

theorem State.Alike.response {s s' : State} (h : s.Alike s') : s'.response = s.response := by
  rcases h with rfl | ⟨-, c, rfl⟩ | ⟨-, -, c, h, r, rfl⟩ <;> rfl

/-- `rst` makes alike states one: it writes every register they may differ in. -/
theorem State.Alike.assertRst {s s' : State} (h : s.Alike s') (rest : List PortEvent) :
    s'.assertRst rest = s.assertRst rest := by
  rcases h with rfl | ⟨-, c, rfl⟩ | ⟨-, -, c, h, r, rfl⟩ <;> rfl

theorem State.Alike.accept {s s' : State} (h : s.Alike s') (cmd : Command) (rest : List PortEvent) :
    (s.accept cmd rest).Alike (s'.accept cmd rest) := by
  rcases h with rfl | ⟨hc, c, rfl⟩ | ⟨hp, hc, c, h, r, rfl⟩
  · exact .refl _
  · exact .unconfigured (s.accept cmd rest) c hc
  · exact .unprepared (s.accept cmd rest) c h r hp hc

theorem step_alike {s s' : State} (h : s.Alike s') : step s' = step s ∨ Result.Alike (step s) (step s') := by
  cases hpend : s.pending with
  | nil =>
    rw [step_idle hpend, step_idle (h.pending.trans hpend)]
    exact .inr ⟨s, s', rfl, rfl, h.response, h⟩
  | cons e rest =>
    cases e with
    | rst =>
      rw [step_rst hpend, step_rst (h.pending.trans hpend), h.assertRst rest]
      exact .inl rfl
    | command c =>
      rw [step_command hpend, step_command (h.pending.trans hpend), h.params]
      exact exec_alike _ (h.accept c rest)

theorem observed_alike (k : Nat) {s s' : State} (h : s.Alike s') : State.observed k s' = State.observed k s := by
  induction k generalizing s s' with
  | zero => rfl
  | succ k ih =>
    rcases step_alike h with hsame | ⟨t, u, ht, hu, hresp, htu⟩
    · simp only [State.observed, hsame]
    · simp only [State.observed, ht, hu, hresp, ih htu]

/-- Settles O17: a run from either state meets alike states, step by step. -/
theorem resetRegisterValuesAreUnobservable : Obligations.ResetRegisterValuesAreUnobservable :=
  fun s c h r k hp hc => observed_alike k (.unprepared s c h r hp hc)

end Sys2Proof.Machine
end

section
/-! Registers, flags and statuses, 10_state.md R21 to R32 and 60_exceptions.md R145: which command writes which, and what each
command can answer. -/

namespace Sys2Proof.Machine

/-! ### Which statuses each command answers (R145) -/

/-- The status of an outcome that is written out. -/
theorem status_of_eq_next {o : Result} {t u : State} {e : Status} (h : o = .next t) (hx : o = .next u)
    (hu : u.status = some e) : t.status = some e := by
  rw [hx, Host.Outcome.next.injEq] at h
  rw [← h, hu]

theorem execPrepare_status {rate : Rate} {s t : State} (h : execPrepare rate s = .next t) :
    t.status = some .ok ∨ t.status = some .invalidParameter := by
  by_cases hr : rate = 0#32
  · subst hr
    exact .inr (status_of_eq_next h (execPrepare_zero s) rfl)
  · exact .inl (status_of_eq_next h (execPrepare_ok rate s hr) rfl)

theorem execSet_status {ty : FilterType} {f q g : FWord} {s t : State} (h : execSet ty f q g s = .next t) :
    t.status = some .ok ∨ t.status = some .notPrepared ∨ t.status = some .invalidParameter := by
  by_cases hp : s.prepared = true
  · by_cases hv : validOperands s.params.precision s.sr f q g = true
    · exact .inl (status_of_eq_next h (execSet_ok ty f q g s hp hv) rfl)
    · exact .inr (.inr (status_of_eq_next h (execSet_invalid ty f q g s hp (Bool.eq_false_of_not_eq_true hv)) rfl))
  · exact .inr (.inl (status_of_eq_next h (execSet_unprepared ty f q g s (Bool.eq_false_of_not_eq_true hp)) rfl))

theorem execProcess_status {a b : Len} {s t : State} (h : execProcess a b s = .next t) :
    t.status = some .ok ∨ t.status = some .notPrepared ∨ t.status = some .notConfigured ∨
      t.status = some .lengthMismatch := by
  by_cases hp : s.prepared = true
  · by_cases hc : s.configured = true
    · by_cases hl : a = b
      · subst hl
        by_cases ho : s.placement = .partialOverlap ∧ a ≠ 0#32
        · exact absurd (execProcess_overlap a s hp hc ho.1 ho.2) (not_refused_of_next h _)
        · exact .inl (status_of_eq_next h (execProcess_ok a s hp hc (by tauto)) rfl)
      · exact .inr (.inr (.inr (status_of_eq_next h (execProcess_mismatch a b s hp hc hl) rfl)))
    · exact .inr (.inr (.inl
        (status_of_eq_next h (execProcess_unconfigured a b s hp (Bool.eq_false_of_not_eq_true hc)) rfl)))
  · exact .inr (.inl (status_of_eq_next h (execProcess_unprepared a b s (Bool.eq_false_of_not_eq_true hp)) rfl))

/-- Every command that answers leaves a status. -/
theorem exec_status {i : Instr} {s t : State} (h : exec i s = .next t) : ∃ e, t.status = some e := by
  rcases exec_next_cases h with ⟨e, -, rfl⟩ | ⟨_, -, -, rfl⟩ | ⟨_, _, _, _, -, -, -, rfl⟩ | ⟨_, -, -, -, -, rfl⟩ | ⟨-, rfl⟩
  case inl => exact ⟨e, rfl⟩
  all_goals exact ⟨.ok, rfl⟩

theorem Status.code_le (e : Status) : e.code.toNat ≤ 4 := by cases e <;> decide

/-- Settles O6. -/
theorem statusesOfEachCommand : Obligations.StatusesOfEachCommand := by
  refine ⟨rfl, rfl, rfl, rfl, rfl, fun i s t h => ⟨?_, ?_, ?_, ?_, ?_⟩⟩
  · obtain ⟨e, he⟩ := exec_status h
    exact ⟨e, he, e.code_le⟩
  · rintro rate rfl
    exact execPrepare_status h
  · intro ty hty
    obtain ⟨f, q, g, -, hx⟩ := exec_of_filterType i ty hty
    exact execSet_status ((hx s).symm.trans h)
  · rintro a b rfl
    exact execProcess_status h
  · rintro rfl
    exact status_of_eq_next h (execReset_eq s) rfl

/-! ### Who writes a register -/

/-- Settles O18: of the five kinds of state a command leads to, only a successful SET has other coefficients. -/
theorem coefficientsAreWrittenBySetOnly : Obligations.CoefficientsAreWrittenBySetOnly := by
  intro i s t h hne
  rcases exec_next_cases h with ⟨_, -, rfl⟩ | ⟨_, -, -, rfl⟩ | ⟨ty, f, q, g, hi, -, hv, rfl⟩ | ⟨a, -, -, -, -, rfl⟩ | ⟨-, rfl⟩
  case inr.inr.inl => exact ⟨rfl, ty, f, q, g, _, hi, (derive_eq_some_iff ..).mpr ⟨hv, rfl⟩⟩
  case inr.inr.inr.inl => exact absurd (burst_coeffs a.toNat 0 s) hne
  all_goals exact absurd rfl hne

/-- Settles O19: a failing command and a SET keep the history, the other successes are the three commands named. -/
theorem historyIsWrittenByProcessPrepareReset : Obligations.HistoryIsWrittenByProcessPrepareReset := by
  intro i s t h hne
  rcases exec_next_cases h with ⟨_, -, rfl⟩ | ⟨rate, hi, -, rfl⟩ | ⟨_, _, _, _, -, -, -, rfl⟩ | ⟨a, hi, -, -, -, rfl⟩ | ⟨hi, rfl⟩
  · exact absurd rfl hne
  · exact ⟨rfl, .inr ⟨.inr ⟨rate, hi⟩, rfl⟩⟩
  · exact absurd rfl hne
  · exact ⟨rfl, .inl ⟨a, hi⟩⟩
  · exact ⟨rfl, .inr ⟨.inl hi, rfl⟩⟩

/-- Settles O21: only a successful PREPARE has another `sr`, and it has failed on a rate of 0. -/
theorem sampleRateIsWrittenByPrepareOnly : Obligations.SampleRateIsWrittenByPrepareOnly := by
  intro i s t h hne
  rcases exec_next_cases h with ⟨_, -, rfl⟩ | ⟨rate, hi, hr, rfl⟩ | ⟨_, _, _, _, -, -, -, rfl⟩ | ⟨a, -, -, -, -, rfl⟩ | ⟨-, rfl⟩
  case inr.inl => exact ⟨rfl, hr, hi⟩
  case inr.inr.inr.inl => exact absurd (burst_sr a.toNat 0 s) hne
  all_goals exact absurd rfl hne

/-- `prepared` stays as it is, or a PREPARE has succeeded and it is 1. -/
theorem exec_prepared {i : Instr} {s t : State} (h : exec i s = .next t) :
    t.prepared = s.prepared ∨ (∃ rate, i = .prepare rate ∧ t.status = some .ok) ∧ t.prepared = true := by
  rcases exec_next_cases h with ⟨_, -, rfl⟩ | ⟨rate, hi, -, rfl⟩ | ⟨_, _, _, _, -, -, -, rfl⟩ | ⟨a, -, -, -, -, rfl⟩ | ⟨-, rfl⟩
  case inr.inl => exact .inr ⟨⟨rate, hi, rfl⟩, rfl⟩
  case inr.inr.inr.inl => exact .inl (burst_prepared a.toNat 0 s)
  all_goals exact .inl rfl

theorem exec_keeps_prepared {i : Instr} {s t : State} (h : exec i s = .next t) (hp : s.prepared = true) :
    t.prepared = true := by
  rcases exec_prepared h with hsame | ⟨-, hset⟩
  · exact hsame.trans hp
  · exact hset

/-- Settles O20: `exec_prepared` for the commands, and of the three kinds of step only `rst` clears the flag. -/
theorem preparedIsSetByPrepareAndClearedByRstOnly : Obligations.PreparedIsSetByPrepareAndClearedByRstOnly := by
  intro s
  refine ⟨fun rate hr => ⟨_, execPrepare_ok rate s hr, rfl, rfl⟩, fun i t h hp => exec_keeps_prepared h hp, ?_,
    ⟨_, execPrepare_zero s, rfl⟩, ?_, fun rest hpend => ⟨_, step_rst hpend, rfl⟩, fun hp => ⟨?_, ?_⟩⟩
  · intro i t h hne
    rcases exec_prepared h with hsame | ⟨hprepare, -⟩
    · exact absurd hsame hne
    · exact hprepare
  · intro t h hp hclear
    rcases step_next_cases h with ⟨-, rfl⟩ | ⟨rest, hpend, -⟩ | ⟨c, rest, -, hx⟩
    · exact absurd (hclear.symm.trans hp) Bool.false_ne_true
    · exact ⟨rest, hpend⟩
    · exact absurd (hclear.symm.trans (exec_keeps_prepared hx hp)) Bool.false_ne_true
  · exact fun ty f q g => ⟨_, (exec_setInstr ty f q g s).trans (execSet_unprepared ty f q g s hp), rfl⟩
  · exact fun a b => ⟨_, execProcess_unprepared a b s hp, rfl⟩

/-! ### The table of transitions (R32) -/

/-- The mode by the two flags (R31). -/
theorem State.mode_eq (s : State) :
    s.mode = if s.prepared then (if s.configured then .configured else .preparedUnconfigured) else .unprepared := by
  unfold State.mode
  split <;> simp_all

theorem State.mode_congr {s t : State} (hp : t.prepared = s.prepared) (hc : t.configured = s.configured) :
    t.mode = s.mode := by
  rw [t.mode_eq, s.mode_eq, hp, hc]

theorem State.mode_of_prepared {s : State} (hp : s.prepared = true) :
    s.mode = if s.configured then .configured else .preparedUnconfigured := by
  rw [s.mode_eq, if_pos hp]

/-- The mode a successful PREPARE enters (R105, D14): in a legal state `configured` alone says whether it was Configured. -/
theorem mode_after_prepare {s t : State} (hs : s.legal = true) (hp : t.prepared = true)
    (hc : t.configured = s.configuredAfterPrepare) :
    t.mode = if s.params.prepareClearsConfig = false ∧ s.mode = .configured then .configured
      else .preparedUnconfigured := by
  obtain ⟨hconf, -, -⟩ := s.legal_iff.mp hs
  have hmode : s.mode = .configured ↔ s.configured = true := by
    rw [State.mode_eq_configured]
    exact ⟨And.right, fun h => ⟨hconf h, h⟩⟩
  simp only [State.mode_of_prepared hp, hc, State.configuredAfterPrepare, hmode]
  cases s.params.prepareClearsConfig <;> simp

theorem State.prepared_of_mode {s : State} (h : s.mode ≠ .unprepared) : s.prepared = true := by
  rwa [ne_eq, State.mode_eq_unprepared, Bool.not_eq_false] at h

theorem execProcess_mode {a b : Len} {s t : State} (h : execProcess a b s = .next t) : t.mode = s.mode := by
  rcases exec_next_cases (i := .process a b) h with
    ⟨_, -, rfl⟩ | ⟨_, ⟨⟩, -⟩ | ⟨ty, f, q, g, hi, -⟩ | ⟨n, -, -, -, -, rfl⟩ | ⟨⟨⟩, -⟩
  · rfl
  · exact absurd hi.symm (setInstr_ne_of_filterType_none rfl ty f q g)
  · exact State.mode_congr (burst_prepared n.toNat 0 s) (burst_configured n.toNat 0 s)

/-- Settles O22, command by command. -/
theorem modeTransitionsFollowTheTable : Obligations.ModeTransitionsFollowTheTable := by
  intro s hs
  refine ⟨?_, ⟨_, execPrepare_zero s, rfl, rfl⟩, ?_, ?_, ?_, ⟨_, execReset_eq s, rfl⟩, fun _ _ _ h => execProcess_mode h,
    fun rest hpend => ⟨_, step_rst hpend, rfl⟩⟩
  · exact fun rate hr => ⟨_, execPrepare_ok rate s hr, mode_after_prepare hs rfl rfl, rfl, rfl, rfl⟩
  · intro ty f q g hmode hsome
    obtain ⟨r, hr⟩ := Option.isSome_iff_exists.mp hsome
    obtain ⟨hv, -⟩ := (derive_eq_some_iff ..).mp hr
    have hp := State.prepared_of_mode hmode
    exact ⟨_, (exec_setInstr ty f q g s).trans (execSet_ok ty f q g s hp hv), (State.mode_eq_configured _).mpr ⟨hp, rfl⟩⟩
  · intro ty f q g hmode hnone
    have hv := (derive_eq_none_iff ..).mp hnone
    exact ⟨_, (exec_setInstr ty f q g s).trans (execSet_invalid ty f q g s (State.prepared_of_mode hmode) hv), rfl, rfl⟩
  · intro ty f q g hmode
    have hp := s.mode_eq_unprepared.mp hmode
    exact ⟨_, (exec_setInstr ty f q g s).trans (execSet_unprepared ty f q g s hp), rfl, rfl⟩

end Sys2Proof.Machine
end

section
/-! The configuration commands, 41_configuration_commands.md: the states PREPARE, RESET and SET leave (R105, R117, R107), which
operands SET accepts (R76 to R78), and what a failing or a repeated SET does (R116, R118). -/

namespace Sys2Proof.Machine

/-! ### PREPARE and RESET -/

/-- Settles O27. -/
theorem prepareStoresTheRateAndZeroesTheHistory : Obligations.PrepareStoresTheRateAndZeroesTheHistory := by
  intro s rate
  constructor
  · exact execPrepare_ok rate s
  · rintro rfl
    exact execPrepare_zero s

/-- Settles O28: the second RESET writes what the first has written. -/
theorem resetCommandZeroesTheHistoryOnly : Obligations.ResetCommandZeroesTheHistoryOnly :=
  fun s => ⟨_, rfl, execReset_eq s, execReset_eq _⟩

/-! ### The eight SET rows -/

/-- On accepted operands a SET in a prepared mode stores the quotients of its type's raw values `raw` (R107), made of `w0`, `sn`,
`cs` and `alpha` (R80, R82). -/
theorem execSet_accepted (ty : FilterType) (f q g : FWord) (s : State) (hp : s.prepared = true)
    (hacc : Accepted s.params.precision s.sr f q g) (raw : FWord → FWord → FWord → Raw)
    (hraw : ∀ sn cs alpha, rawValues s.params (Config.nanBits s.draws) ty sn cs alpha g = raw sn cs alpha) :
    let p := s.params.precision
    let d := Config.nanBits s.draws
    let w0 := fdiv p (d 2) (fmul p (d 1) (fmul p (d 0) (cvt p 2) (Config.piWord p)) f) (cvt p s.sr.toNat)
    let sn := fsin p w0
    let r := raw sn (fcos p w0) (fdiv p (d 4) sn (fmul p (d 3) (cvt p 2) q))
    execSet ty f q g s = .next { s with
      coeffs := ⟨fdiv p (d 40) r.b0 r.a0, fdiv p (d 41) r.b1 r.a0, fdiv p (d 42) r.b2 r.a0, fdiv p (d 43) r.a1 r.a0,
        fdiv p (d 44) r.a2 r.a0⟩
      configured := true
      response := some ⟨.ok, []⟩
      draws := s.draws + 1 } := by
  rw [execSet_ok ty f q g s hp ((validOperands_iff ..).mpr hacc)]
  simp only [cookbook, hraw, normalise, angularFrequency, bandwidth]

/-! The common denominator (R85), the amplitude (R83) and the shelf terms (R84), by their formulas. -/

theorem commonA0_eq (p : Precision) (d : Draws) (alpha : FWord) : commonA0 p d alpha = fadd p (d 6) (cvt p 1) alpha := rfl

theorem commonA1_eq (p : Precision) (d : Draws) (cs : FWord) :
    commonA1 p d cs = fmul p (d 7) (fneg p (cvt p 2)) cs := rfl

theorem commonA2_eq (p : Precision) (d : Draws) (alpha : FWord) : commonA2 p d alpha = fsub p (d 8) (cvt p 1) alpha := rfl

theorem amplitude_eq_formula (p : Precision) (d : Draws) (g : FWord) :
    amplitude p d g = fpow p (cvt p 10) (fdiv p (d 5) g (cvt p 40)) := rfl

theorem shelfTerms_eq (p : Precision) (d : Draws) (a cs alpha : FWord) :
    shelfTerms p d a cs alpha =
      ⟨fadd p (d 10) a (cvt p 1), fsub p (d 11) a (cvt p 1), fmul p (d 12) (fadd p (d 10) a (cvt p 1)) cs,
        fmul p (d 13) (fsub p (d 11) a (cvt p 1)) cs, fmul p (d 15) (fmul p (d 14) (cvt p 2) (fsqrt p (d 9) a)) alpha⟩ := rfl

theorem rawBandPass_eq (p : Precision) (d : Draws) (form : BandpassForm) (sn cs alpha : FWord) :
    rawBandPass p d form sn cs alpha =
      let h := if form = .peak0db then alpha else fdiv p (d 9) sn (cvt p 2)
      ⟨h, 0#64, fneg p h, commonA0 p d alpha, commonA1 p d cs, commonA2 p d alpha⟩ := by
  cases form <;> rfl

/-- Settles O29: the formulas of R86. -/
theorem setLowPassStoresItsQuotients : Obligations.SetLowPassStoresItsQuotients := by
  intro s f q g hp hacc
  refine ⟨Config.nanBits s.draws, (execSet_accepted .lowPass f q g s hp hacc
    (fun _ => rawLowPass _ _) fun _ _ _ => rfl).trans ?_⟩
  simp only [rawLowPass, commonA0_eq, commonA1_eq, commonA2_eq]

/-- Settles O30: the formulas of R87. -/
theorem setHighPassStoresItsQuotients : Obligations.SetHighPassStoresItsQuotients := by
  intro s f q g hp hacc
  refine ⟨Config.nanBits s.draws, (execSet_accepted .highPass f q g s hp hacc
    (fun _ => rawHighPass _ _) fun _ _ _ => rfl).trans ?_⟩
  simp only [rawHighPass, commonA0_eq, commonA1_eq, commonA2_eq]

/-- Settles O31: the formulas of R88, with the numerator that `BANDPASS_FORM` names. -/
theorem setBandPassStoresItsQuotients : Obligations.SetBandPassStoresItsQuotients := by
  intro s f q g hp hacc
  refine ⟨Config.nanBits s.draws, (execSet_accepted .bandPass f q g s hp hacc
    (rawBandPass _ _ _) fun _ _ _ => rfl).trans ?_⟩
  simp only [rawBandPass_eq, commonA0_eq, commonA1_eq, commonA2_eq]

/-- Settles O32: the formulas of R89. -/
theorem setNotchStoresItsQuotients : Obligations.SetNotchStoresItsQuotients := by
  intro s f q g hp hacc
  refine ⟨Config.nanBits s.draws, (execSet_accepted .notch f q g s hp hacc
    (fun _ => rawNotch _ _) fun _ _ _ => rfl).trans ?_⟩
  simp only [rawNotch, commonA0_eq, commonA1_eq, commonA2_eq]

/-- Settles O33: the formulas of R90, with the amplitude of R83. -/
theorem setPeakStoresItsQuotients : Obligations.SetPeakStoresItsQuotients := by
  intro s f q g hp hacc
  refine ⟨Config.nanBits s.draws, (execSet_accepted .peak f q g s hp hacc
    (fun _ => rawPeak _ _ (amplitude _ _ g)) fun _ _ _ => rfl).trans ?_⟩
  simp only [rawPeak, amplitude_eq_formula]

/-- Settles O34: the formulas of R91, with the amplitude of R83 and the shelf terms of R84. -/
theorem setLowShelfStoresItsQuotients : Obligations.SetLowShelfStoresItsQuotients := by
  intro s f q g hp hacc
  refine ⟨Config.nanBits s.draws, (execSet_accepted .lowShelf f q g s hp hacc
    (fun _ => rawLowShelf _ _ (amplitude _ _ g)) fun _ _ _ => rfl).trans ?_⟩
  simp only [rawLowShelf, amplitude_eq_formula, shelfTerms_eq]

/-- Settles O35: the formulas of R92, with the amplitude of R83 and the shelf terms of R84. -/
theorem setHighShelfStoresItsQuotients : Obligations.SetHighShelfStoresItsQuotients := by
  intro s f q g hp hacc
  refine ⟨Config.nanBits s.draws, (execSet_accepted .highShelf f q g s hp hacc
    (fun _ => rawHighShelf _ _ (amplitude _ _ g)) fun _ _ _ => rfl).trans ?_⟩
  simp only [rawHighShelf, amplitude_eq_formula, shelfTerms_eq]

/-- Settles O36: the formulas of R93. -/
theorem setAllPassStoresItsQuotients : Obligations.SetAllPassStoresItsQuotients := by
  intro s f q g hp hacc
  refine ⟨Config.nanBits s.draws, (execSet_accepted .allPass f q g s hp hacc
    (fun _ => rawAllPass _ _) fun _ _ _ => rfl).trans ?_⟩
  simp only [rawAllPass, commonA0_eq, commonA1_eq, commonA2_eq]

/-- Settles O37: the engine's checks are R76 to R78 over the reals (`validOperands_iff`), and decide SET's answer. -/
theorem setSucceedsExactlyOnAcceptedOperands : Obligations.SetSucceedsExactlyOnAcceptedOperands := by
  intro s ty f q g hp
  rw [exec_setInstr]
  constructor
  · exact fun hacc => ⟨_, execSet_ok ty f q g s hp ((validOperands_iff ..).mpr hacc), rfl, rfl⟩
  · intro hacc
    rw [← validOperands_iff, Bool.not_eq_true] at hacc
    exact execSet_invalid ty f q g s hp hacc

/-! ### A failing SET, and a SET made twice -/

/-- The present response is written by every PROCESS and read by none. -/
theorem burst_response (k n : Nat) (s : State) (r : Option Response) :
    burst k n { s with response := r } = ({ (burst k n s).1 with response := r }, (burst k n s).2) := by
  induction k generalizing n s with
  | zero => rfl
  | succ k ih =>
    have hstep : ({ s with response := r } : State).sampleStep n = { s.sampleStep n with response := r } := rfl
    rw [burst_succ, burst_succ, hstep, ih]
    rfl

theorem execProcess_response (a b : Len) (s : State) (r : Option Response) :
    execProcess a b { s with response := r } = execProcess a b s := by
  simp only [execProcess, State.raise_def, burst_response, State.answer]

/-- Settles O39: a failing SET writes the response only, which no PROCESS reads. -/
theorem failingSetLeavesNoTrace : Obligations.FailingSetLeavesNoTrace := by
  intro s t ty f q g h hfail
  obtain ⟨e, rfl⟩ := failingCommandsChangeNothing _ s t h hfail
  exact ⟨rfl, rfl, fun a b => execProcess_response a b s _⟩

/-- Settles O42: both SETs store one cookbook's results, at two draw numbers. -/
theorem setIsIdempotent : Obligations.SetIsIdempotent := by
  intro s s' t t' ty f q g hparams hsr h h' hok hok'
  rw [exec_setInstr] at h h'
  obtain ⟨-, hv, rfl⟩ := execSet_status_ok h hok
  obtain ⟨-, -, rfl⟩ := execSet_status_ok h' hok'
  simp only [hparams, hsr]
  exact cookbook_same s.params _ _ ty hv

end Sys2Proof.Machine
end

section
/-! The arithmetic of 00_scope.md R11, R13 and R14 over the real numbers: every primitive rounds the exact result once, special
operands give the IEEE results, and subnormal numbers are ordinary values. -/

namespace Sys2Proof

/-! ### Finite operands leave the branches for special operands -/

theorem fadd_finite (p : Precision) (n : FWord) {a b : FWord} (ha : p.finite a = true) (hb : p.finite b = true) :
    fadd p n a b = p.roundInt (p.signBit a && p.signBit b) (p.scaledInt a + p.scaledInt b) := by
  obtain ⟨ha1, ha2⟩ := (p.finite_iff a).mp ha
  obtain ⟨hb1, hb2⟩ := (p.finite_iff b).mp hb
  simp [fadd, ha1, ha2, hb1, hb2]

theorem fmul_finite (p : Precision) (n : FWord) {a b : FWord} (ha : p.finite a = true) (hb : p.finite b = true) :
    fmul p n a b = p.mkWord (p.signBit a != p.signBit b) (p.roundMag (p.scaled a * p.scaled b) (2 ^ p.scaleBits)) := by
  obtain ⟨ha1, ha2⟩ := (p.finite_iff a).mp ha
  obtain ⟨hb1, hb2⟩ := (p.finite_iff b).mp hb
  simp [fmul, ha1, ha2, hb1, hb2]

theorem fdiv_finite (p : Precision) (n : FWord) {a b : FWord} (ha : p.finite a = true) (hb : p.finite b = true)
    (hz : p.isZero b = false) :
    fdiv p n a b = p.mkWord (p.signBit a != p.signBit b) (p.roundMag (p.scaled a * 2 ^ p.scaleBits) (p.scaled b)) := by
  obtain ⟨ha1, ha2⟩ := (p.finite_iff a).mp ha
  obtain ⟨hb1, hb2⟩ := (p.finite_iff b).mp hb
  simp [fdiv, ha1, ha2, hb1, hb2, hz]

theorem Precision.scaled_pos (p : Precision) {w : FWord} (hz : p.isZero w = false) : 0 < p.scaled w := by
  rw [Nat.pos_iff_ne_zero, ne_eq, p.scaled_eq_zero_iff, hz]
  exact Bool.false_ne_true

/-! ### Sum and difference -/

theorem Precision.real_cast (p : Precision) (w : FWord) : (p.real w : ℝ) = (p.scaledInt w : ℝ) / 2 ^ p.scaleBits := by
  simp [Precision.real]

theorem Precision.real_fneg (p : Precision) (w : FWord) : (p.real (fneg p w) : ℝ) = -(p.real w : ℝ) := by
  rw [p.real_cast, p.real_cast, fneg_scaledInt]
  push_cast
  ring

theorem fadd_roundsTo (p : Precision) (n : FWord) {a b : FWord} (ha : p.finite a = true) (hb : p.finite b = true) :
    p.RoundsTo ((p.real a : ℝ) + (p.real b : ℝ)) (fadd p n a b) := by
  have hsum : (p.real a : ℝ) + p.real b = ((p.scaledInt a + p.scaledInt b : ℤ) : ℝ) / 2 ^ p.scaleBits := by
    rw [p.real_cast, p.real_cast, Int.cast_add, add_div]
  rw [fadd_finite p n ha hb, hsum]
  exact p.roundsTo_roundInt _ _

/-- Settles O55: the sum of two whole numbers of units is exact and is rounded once; the difference is the sum with the sign
flipped. -/
theorem additionRoundsTheExactSum : Obligations.AdditionRoundsTheExactSum := by
  intro p n a b ha hb
  refine ⟨fadd_roundsTo p n ha hb, ?_⟩
  rw [sub_eq_add_neg, ← p.real_fneg]
  exact fadd_roundsTo p n ha (by rwa [fneg_finite])

/-! ### Product and quotient -/

/-- The sign of a product or quotient is the exclusive or of the signs, as a factor of 1 or -1. -/
theorem sign_mul_sign (s t : Bool) :
    (if s then -1 else 1 : ℝ) * (if t then -1 else 1) = if (s != t) then -1 else 1 := by
  cases s <;> cases t <;> simp

theorem sign_div_sign (s t : Bool) :
    (if s then -1 else 1 : ℝ) / (if t then -1 else 1) = if (s != t) then -1 else 1 := by
  cases s <;> cases t <;> simp

theorem fmul_roundsTo (p : Precision) (n : FWord) {a b : FWord} (ha : p.finite a = true) (hb : p.finite b = true) :
    p.RoundsTo ((p.real a : ℝ) * (p.real b : ℝ)) (fmul p n a b) := by
  have hS : (2 : ℝ) ^ p.scaleBits ≠ 0 := by positivity
  have hprod : (p.real a : ℝ) * p.real b = (if (p.signBit a != p.signBit b) then -1 else 1) *
      (((p.scaled a * p.scaled b : ℕ) : ℝ) / ((2 ^ p.scaleBits : ℕ) : ℝ)) / 2 ^ p.scaleBits := by
    rw [p.real_scaled, p.real_scaled, ← sign_mul_sign]
    push_cast
    field_simp
  rw [fmul_finite p n ha hb, hprod]
  exact p.roundsTo_mkWord _ _ _ (by positivity)

theorem fdiv_roundsTo (p : Precision) (n : FWord) {a b : FWord} (ha : p.finite a = true) (hb : p.finite b = true)
    (hz : p.isZero b = false) : p.RoundsTo ((p.real a : ℝ) / (p.real b : ℝ)) (fdiv p n a b) := by
  have hS : (2 : ℝ) ^ p.scaleBits ≠ 0 := by positivity
  have hquot : (p.real a : ℝ) / p.real b = (if (p.signBit a != p.signBit b) then -1 else 1) *
      (((p.scaled a * 2 ^ p.scaleBits : ℕ) : ℝ) / ((p.scaled b : ℕ) : ℝ)) / 2 ^ p.scaleBits := by
    rw [p.real_scaled, p.real_scaled, ← sign_div_sign, div_div_div_cancel_right₀ hS, mul_div_mul_comm]
    push_cast
    field_simp
  rw [fdiv_finite p n ha hb hz, hquot]
  exact p.roundsTo_mkWord _ _ _ (p.scaled_pos hz)

/-- Settles O56. -/
theorem multiplicationAndDivisionRoundOnce : Obligations.MultiplicationAndDivisionRoundOnce := by
  intro p n a b ha hb
  refine ⟨fmul_roundsTo p n ha hb, ?_, fun hz => ⟨fdiv_roundsTo p n ha hb hz, ?_⟩⟩
  · rw [fmul_finite p n ha hb, p.signBit_mkWord _ _ (p.roundMag_lt _ _)]
  · rw [fdiv_finite p n ha hb hz, p.signBit_mkWord _ _ (p.roundMag_lt _ _)]

/-! ### Square root and conversion -/

/-- A finite word that is not negative and no zero has its sign bit clear. -/
theorem Precision.signBit_of_real_nonneg (p : Precision) {w : FWord} (h : 0 ≤ p.real w) (hz : p.isZero w = false) :
    p.signBit w = false := by
  by_contra hs
  rw [Bool.not_eq_false] at hs
  have hpos : (0 : ℝ) < p.scaled w := by exact_mod_cast p.scaled_pos hz
  have hreal : (0 : ℝ) ≤ p.real w := by exact_mod_cast h
  rw [p.real_scaled, hs, if_pos rfl, le_div_iff₀ (by positivity)] at hreal
  linarith

/-- `fsqrt` counts in units: the root of `v` units is the root of `v * 2 ^ scaleBits`, in units. -/
theorem Precision.sqrt_real (p : Precision) {w : FWord} (hs : p.signBit w = false) :
    Real.sqrt (p.real w : ℝ) = Real.sqrt ((p.scaled w * 2 ^ p.scaleBits : ℕ) : ℝ) / 2 ^ p.scaleBits := by
  have hS : (0 : ℝ) < 2 ^ p.scaleBits := by positivity
  have hsq : (p.real w : ℝ) = ((p.scaled w * 2 ^ p.scaleBits : ℕ) : ℝ) / (2 ^ p.scaleBits) ^ 2 := by
    rw [p.real_scaled, hs, if_neg Bool.false_ne_true]
    push_cast
    field_simp
  rw [hsq, Real.sqrt_div (Nat.cast_nonneg _), Real.sqrt_sq hS.le]

/-- The fuel of `fsqrt` suffices. -/
theorem lt_four_pow_log2 (n : Nat) : n < 4 ^ (Nat.log2 n / 2 + 1) := by
  calc n < 2 ^ (Nat.log2 n + 1) := Nat.lt_log2_self
    _ ≤ 2 ^ (2 * (Nat.log2 n / 2 + 1)) := Nat.pow_le_pow_right (by decide) (by omega)
    _ = 4 ^ (Nat.log2 n / 2 + 1) := by
      rw [pow_mul]
      rfl

theorem Precision.magBits_lt_of_finite (p : Precision) {w : FWord} (h : p.finite w = true) : p.magBits w < p.infMag := by
  simpa [Precision.finite] using h

/-- A finite word is below the overflow bound, in units. -/
theorem Precision.scaled_lt_overflowUnits (p : Precision) {w : FWord} (h : p.finite w = true) :
    p.scaled w < p.overflowUnits := by
  have hmag := p.magBits_lt_of_finite h
  have hmax : p.magValue (p.magBits w) ≤ p.magValue (p.infMag - 1) := p.magValue_strictMono.monotone (by omega)
  have hinf : p.magValue (p.infMag - 1) < p.magValue p.infMag := p.magValue_strictMono (by omega)
  have hhalf := p.overflowUnits_spec
  rw [Precision.scaled]
  omega

/-- The overflow bound is above 1. -/
theorem Precision.scale_le_overflowUnits (p : Precision) : 2 ^ p.scaleBits ≤ p.overflowUnits :=
  calc 2 ^ p.scaleBits ≤ 2 ^ (2 ^ p.expBits - 4) := Nat.pow_le_pow_right (by decide) (by cases p <;> decide)
    _ ≤ p.overflowUnits := Nat.le_mul_of_pos_left _ (by cases p <;> decide)

/-- The root of a finite number that is no zero has more than `fracBits + 4` bits and is below the overflow bound, in units. -/
theorem Precision.isqrt_bounds (p : Precision) {w : FWord} (hf : p.finite w = true) (hz : p.isZero w = false) {r : Nat}
    (hlow : r * r ≤ p.scaled w * 2 ^ p.scaleBits) (hhigh : p.scaled w * 2 ^ p.scaleBits < (r + 1) * (r + 1)) :
    2 ^ (p.fracBits + 4) ≤ r ∧ 2 * r + 1 < p.overflowUnits * 2 := by
  have hpos := p.scaled_pos hz
  constructor
  · by_contra hr
    have hbits : 2 ^ (p.fracBits + 4) * 2 ^ (p.fracBits + 4) ≤ 2 ^ p.scaleBits := by
      rw [← pow_add]
      exact Nat.pow_le_pow_right (by decide) (by cases p <;> decide)
    have hsq : (r + 1) * (r + 1) ≤ 2 ^ (p.fracBits + 4) * 2 ^ (p.fracBits + 4) :=
      Nat.mul_le_mul (by omega) (by omega)
    have hunit : 2 ^ p.scaleBits ≤ p.scaled w * 2 ^ p.scaleBits := Nat.le_mul_of_pos_left _ hpos
    omega
  · have hbelow := p.scaled_lt_overflowUnits hf
    have hbig := p.scale_le_overflowUnits
    have hr : r < p.overflowUnits := by
      by_contra hr
      have h1 : p.overflowUnits * p.overflowUnits ≤ r * r := Nat.mul_le_mul (not_lt.mp hr) (not_lt.mp hr)
      have h2 : p.scaled w * 2 ^ p.scaleBits < p.overflowUnits * p.overflowUnits :=
        Nat.mul_lt_mul_of_lt_of_le hbelow hbig (lt_of_lt_of_le (by positivity) hbig)
      omega
    omega

theorem fsqrt_roundsTo (p : Precision) (n : FWord) {a : FWord} (ha : p.finite a = true) (hr : 0 ≤ p.real a) :
    p.RoundsTo (Real.sqrt (p.real a : ℝ)) (fsqrt p n a) := by
  obtain ⟨hnan, hinf⟩ := (p.finite_iff a).mp ha
  by_cases hz : p.isZero a = true
  · have h0 : (p.real a : ℝ) = 0 := by simp [p.real_scaled, (p.scaled_eq_zero_iff a).mpr hz]
    have hzero := p.roundsTo_roundInt (p.signBit a) 0
    simpa [fsqrt, hnan, hz, h0, Precision.roundInt] using hzero
  · rw [Bool.not_eq_true] at hz
    have hs := p.signBit_of_real_nonneg hr hz
    obtain ⟨hlow, hhigh⟩ := isqrt_spec _ _ (lt_four_pow_log2 (p.scaled a * 2 ^ p.scaleBits))
    simp only [fsqrt, hnan, hz, hs, hinf, Bool.false_eq_true, if_false]
    rw [p.sqrt_real hs]
    obtain ⟨hbits, hover⟩ := p.isqrt_bounds ha hz hlow hhigh
    generalize isqrt (Nat.log2 (p.scaled a * 2 ^ p.scaleBits) / 2 + 1) (p.scaled a * 2 ^ p.scaleBits) = r at *
    generalize p.scaled a * 2 ^ p.scaleBits = m at *
    by_cases hexact : r * r = m
    · have hroot : Real.sqrt (m : ℝ) = r := by
        rw [← hexact, Nat.cast_mul, Real.sqrt_mul_self (Nat.cast_nonneg r)]
      have hround := p.roundsTo_mkWord false (2 * r) 2 (by decide)
      simpa [hexact, hroot] using hround
    · have hlt : (r : ℝ) < Real.sqrt m := by
        rw [Real.lt_sqrt (Nat.cast_nonneg r), sq]
        exact_mod_cast lt_of_le_of_ne hlow hexact
      have hgt : Real.sqrt m < (r : ℝ) + 1 := by
        rw [Real.sqrt_lt' (by positivity), sq]
        exact_mod_cast hhigh
      simpa only [hexact, if_false] using p.roundsTo_between r _ hlt hgt hbits hover

theorem cvt_roundsTo (p : Precision) (n : Nat) : p.RoundsTo (n : ℝ) (cvt p n) := by
  have hround := p.roundsTo_mkWord false (n * 2 ^ p.scaleBits) 1 Nat.one_pos
  have hunits : (if false = true then -1 else 1 : ℝ) * (((n * 2 ^ p.scaleBits : ℕ) : ℝ) / (1 : ℕ)) / 2 ^ p.scaleBits = n := by
    push_cast
    simp
  rwa [hunits] at hround

/-- Settles O57. -/
theorem squareRootAndConversionRoundOnce : Obligations.SquareRootAndConversionRoundOnce :=
  ⟨fun p n _ ha hr => fsqrt_roundsTo p n ha hr, fun p r => cvt_roundsTo p r.toNat⟩

/-! ### Special operands -/

/-- `inf - inf` of one sign is the sum of infinities of two signs. -/
theorem fsub_inf_inf (p : Precision) (n : FWord) {a b : FWord} (ha : p.isInf a = true) (hb : p.isInf b = true)
    (hs : p.signBit a = p.signBit b) : p.isNaN (fsub p n a b) = true := by
  simp [fsub, fadd, p.not_isNaN_of_isInf ha, p.not_isNaN_of_isInf hb, ha, hb, fneg_signBit, hs]

theorem fmul_zero_inf (p : Precision) (n : FWord) {a b : FWord} (ha : p.isZero a = true) (hb : p.isInf b = true) :
    p.isNaN (fmul p n a b) = true ∧ p.isNaN (fmul p n b a) = true := by
  have hnan := p.isNaN_of_finite (p.finite_of_isZero ha)
  simp [fmul, hnan, p.not_isNaN_of_isInf hb, ha, hb]

theorem fdiv_zero_zero (p : Precision) (n : FWord) {a b : FWord} (ha : p.isZero a = true) (hb : p.isZero b = true) :
    p.isNaN (fdiv p n a b) = true := by
  obtain ⟨hna, hia⟩ := (p.finite_iff a).mp (p.finite_of_isZero ha)
  obtain ⟨hnb, hib⟩ := (p.finite_iff b).mp (p.finite_of_isZero hb)
  simp [fdiv, hna, hia, hnb, hib, ha, hb]

theorem fdiv_inf_inf (p : Precision) (n : FWord) {a b : FWord} (ha : p.isInf a = true) (hb : p.isInf b = true) :
    p.isNaN (fdiv p n a b) = true := by
  simp [fdiv, p.not_isNaN_of_isInf ha, p.not_isNaN_of_isInf hb, ha, hb]

theorem fsqrt_negative (p : Precision) (n : FWord) {a : FWord} (hs : p.signBit a = true) (hz : p.isZero a = false) :
    p.isNaN (fsqrt p n a) = true := by
  by_cases hn : p.isNaN a = true
  · exact fsqrt_nan p n a hn
  · simp [fsqrt, hn, hz, hs]

theorem fdiv_by_zero (p : Precision) (n : FWord) {a b : FWord} (ha : p.finite a = true) (hz : p.isZero a = false)
    (hb : p.isZero b = true) : fdiv p n a b = p.infWord (p.signBit a != p.signBit b) := by
  obtain ⟨hna, hia⟩ := (p.finite_iff a).mp ha
  obtain ⟨hnb, hib⟩ := (p.finite_iff b).mp (p.finite_of_isZero hb)
  simp [fdiv, hna, hia, hnb, hib, hz, hb]

/-- Settles O58. -/
theorem specialOperandsGiveTheirResults : Obligations.SpecialOperandsGiveTheirResults := fun p n a b =>
  ⟨fun h => ⟨fadd_nan p n a b h, fsub_nan p n a b h, fmul_nan p n a b h, fdiv_nan p n a b h⟩, fsqrt_nan p n a,
    fsub_inf_inf p n, fmul_zero_inf p n, fdiv_zero_zero p n, fdiv_inf_inf p n, fsqrt_negative p n, fdiv_by_zero p n,
    ⟨p.isNaN_nanWord n, p.fits_nanWord n⟩, fun hf hn => ⟨a, p.nanWord_self a hf hn⟩⟩

/-! ### Neutral operands -/

/-- The number 1 is representable: exponent field `bias`, fraction 0. -/
theorem Precision.magValue_one (p : Precision) : p.magValue (p.bias * 2 ^ p.fracBits) = 2 ^ p.scaleBits := by
  have hpos : 1 ≤ p.bias := by cases p <;> decide
  obtain ⟨k, hk⟩ := Nat.exists_eq_add_of_le' hpos
  have hfield : p.bias * 2 ^ p.fracBits = k * 2 ^ p.fracBits + 2 ^ p.fracBits := by rw [hk, Nat.succ_mul]
  have hscale : p.scaleBits = p.fracBits + k := by
    rw [Precision.scaleBits, hk]
    omega
  rw [hfield, p.magValue_encode k _ (by omega) (.inr le_rfl), hscale, pow_add]

/-- The literal 1 is exact. -/
theorem cvt_one_scaled (p : Precision) : p.scaled (cvt p 1) = 2 ^ p.scaleBits := by
  have hfin : p.bias * 2 ^ p.fracBits < p.infMag :=
    Nat.mul_lt_mul_of_pos_right (by cases p <;> decide) (by positivity)
  have hround := p.roundMag_exact _ 1 Nat.one_pos hfin
  rw [p.magValue_one, Nat.mul_one] at hround
  rw [Precision.scaled, cvt_magBits, Nat.one_mul, hround, p.magValue_one]

theorem cvt_signBit (p : Precision) (n : Nat) : p.signBit (cvt p n) = false := p.signBit_mkWord _ _ (p.roundMag_lt _ _)

theorem cvt_one_finite (p : Precision) : p.finite (cvt p 1) = true := cvt_finite p 1 (by decide)

theorem cvt_one_not_zero (p : Precision) : p.isZero (cvt p 1) = false := cvt_not_zero p 1 (by decide) (by decide)

theorem cvt_fits (p : Precision) (n : Nat) : p.fits (cvt p n) = true := p.fits_mkWord_round _ _ _

/-- A finite word's own magnitude, in any units, rounds to itself. -/
theorem Precision.mkWord_roundMag_scaled (p : Precision) {a : FWord} (hfit : p.fits a = true) (ha : p.finite a = true)
    (d : Nat) (hd : 0 < d) : p.mkWord (p.signBit a) (p.roundMag (p.scaled a * d) d) = a := by
  rw [Precision.scaled, p.roundMag_exact _ d hd (p.magBits_lt_of_finite ha), p.mkWord_eta a hfit]

theorem fmul_one (p : Precision) (n : FWord) {a : FWord} (hfit : p.fits a = true) (ha : p.finite a = true) :
    fmul p n a (cvt p 1) = a := by
  rw [fmul_finite p n ha (cvt_one_finite p), cvt_signBit, cvt_one_scaled, Bool.bne_false]
  exact p.mkWord_roundMag_scaled hfit ha _ (by positivity)

theorem fdiv_one (p : Precision) (n : FWord) {a : FWord} (hfit : p.fits a = true) (ha : p.finite a = true) :
    fdiv p n a (cvt p 1) = a := by
  rw [fdiv_finite p n ha (cvt_one_finite p) (cvt_one_not_zero p), cvt_signBit, cvt_one_scaled, Bool.bne_false]
  exact p.mkWord_roundMag_scaled hfit ha _ (by positivity)

/-- A finite number that is no zero, over itself, is 1. -/
theorem fdiv_self (p : Precision) (n : FWord) {a : FWord} (ha : p.finite a = true) (hz : p.isZero a = false) :
    fdiv p n a a = cvt p 1 := by
  have hone := p.mkWord_roundMag_scaled (cvt_fits p 1) (cvt_one_finite p) (p.scaled a) (p.scaled_pos hz)
  rw [cvt_signBit, cvt_one_scaled, Nat.mul_comm] at hone
  rw [fdiv_finite p n ha ha hz, bne_self_eq_false, hone]

theorem Precision.natAbs_scaledInt (p : Precision) (w : FWord) : (p.scaledInt w).natAbs = p.scaled w := by
  rw [Precision.scaledInt]
  split
  · rw [Int.natAbs_neg, Int.natAbs_natCast]
  · rw [Int.natAbs_natCast]

theorem Precision.scaledInt_neg (p : Precision) {w : FWord} (hz : p.isZero w = false) :
    decide (p.scaledInt w < 0) = p.signBit w := by
  have hpos := p.scaled_pos hz
  rw [Precision.scaledInt]
  cases p.signBit w
  · exact decide_eq_false (by simp)
  · exact decide_eq_true (by simpa using hpos)

theorem fadd_zero (p : Precision) (n : FWord) {a z : FWord} (hfit : p.fits a = true) (ha : p.finite a = true)
    (hz : p.isZero a = false) (hzero : p.isZero z = true) : fadd p n a z = a := by
  have hz0 : p.scaledInt z = 0 := by
    rw [← Int.natAbs_eq_zero, p.natAbs_scaledInt, p.scaled_eq_zero_iff, hzero]
  have hne : p.scaledInt a ≠ 0 := by
    rw [ne_eq, ← Int.natAbs_eq_zero, p.natAbs_scaledInt]
    exact (p.scaled_pos hz).ne'
  rw [fadd_finite p n ha (p.finite_of_isZero hzero), hz0, add_zero, Precision.roundInt, if_neg hne, p.scaledInt_neg hz,
    p.natAbs_scaledInt, ← Nat.mul_one (p.scaled a)]
  exact p.mkWord_roundMag_scaled hfit ha 1 Nat.one_pos

/-- Settles O59: a finite word, subnormal or not, is representable, so that no rounding moves it. -/
theorem subnormalsAreNotFlushed : Obligations.SubnormalsAreNotFlushed := fun p n _ _ hfit ha hz hzero =>
  ⟨fadd_zero p n hfit ha hz hzero, fmul_one p n hfit ha, fdiv_one p n hfit ha⟩

end Sys2Proof
end

section
/-! The coefficients of one type are related, 40_coefficient_engine.md R97 and R135: equal raw values have equal quotients, and
Peak at amplitude 1 is the identity. -/

namespace Sys2Proof.Machine

/-! ### Quotients of related raw values -/

/-- One dividend over one divisor is one value, NaN bit patterns apart. -/
theorem fdiv_same_self (p : Precision) (m n a b : FWord) : p.same (fdiv p m a b) (fdiv p n a b) :=
  fdiv_same p m n (p.same_refl a) (p.same_refl b)

theorem fneg_fneg (p : Precision) {a : FWord} (h : p.fits a = true) : fneg p (fneg p a) = a := by
  rw [fneg, fneg_signBit, fneg_magBits, Bool.not_not, p.mkWord_eta a h]

/-- A quotient changes its sign with its dividend, NaN bit patterns apart. -/
theorem fdiv_fneg_same (p : Precision) (m n : FWord) {a : FWord} (b : FWord) (ha : p.fits a = true) :
    p.same (fdiv p n (fneg p a) b) (fneg p (fdiv p m a b)) := by
  by_cases h : p.isNaN (fdiv p m a b) = true
  · refine .inr ⟨?_, by rwa [fneg_isNaN]⟩
    by_contra hnot
    have hflip := fdiv_fneg p n m (fneg p a) b (Bool.eq_false_of_not_eq_true hnot)
    rw [fneg_fneg p ha] at hflip
    rw [hflip, fneg_isNaN] at h
    exact hnot h
  · exact .inl (fdiv_fneg p m n a b (Bool.eq_false_of_not_eq_true h))

theorem bandwidth_fits (p : Precision) (d : Draws) (sn q : FWord) : p.fits (bandwidth p d sn q) = true :=
  fdiv_fits p _ _ _

/-- The coefficients of a SET that answered `OK` are the quotients of its type's raw values. -/
theorem exec_set_quotients {i : Instr} {ty : FilterType} {f q g : FWord} {s t : State} (hi : i = setInstr ty f q g)
    (h : exec i s = .next t) (hok : t.status = some .ok) :
    ∃ d sn cs alpha, s.params.precision.fits alpha = true ∧
      t.coeffs = normalise s.params.precision d (rawValues s.params d ty sn cs alpha g) := by
  subst hi
  rw [exec_setInstr] at h
  obtain ⟨-, -, rfl⟩ := execSet_status_ok h hok
  exact ⟨_, _, _, _, bandwidth_fits _ _ _ q, rfl⟩

/-- The denominator of the five types that ignore the gain is the common one (R85, R86 to R89, R93). -/
theorem rawValues_common_denominator (c : Params) (d : Draws) {ty : FilterType} (sn cs alpha g : FWord)
    (hpeak : ty ≠ .peak) (hlow : ty ≠ .lowShelf) (hhigh : ty ≠ .highShelf) :
    (rawValues c d ty sn cs alpha g).a0 = commonA0 c.precision d alpha ∧
      (rawValues c d ty sn cs alpha g).a1 = commonA1 c.precision d cs ∧
      (rawValues c d ty sn cs alpha g).a2 = commonA2 c.precision d alpha := by
  cases ty with
  | peak | lowShelf | highShelf => contradiction
  | lowPass | highPass | bandPass | notch | allPass =>
    simp only [rawValues, rawLowPass, rawHighPass, rawBandPass, rawNotch, rawAllPass, and_self]

/-- `w0` of valid operands is the same word at every draw. -/
theorem angularFrequency_eq (p : Precision) (d d' : Draws) {sr : Rate} {f q g : FWord}
    (hv : validOperands p sr f q g = true) : angularFrequency p d sr f = angularFrequency p d' sr f := by
  have hacc := (validOperands_iff ..).mp hv
  have hsr := rate_ne_zero_of_accepted hacc
  obtain ⟨hf, -⟩ := hacc
  exact p.eq_of_same (angularFrequency_same p d d' sr f) (angularFrequency_not_nan p d sr f hf hsr)

/-- The coefficients of `cookbook` are quotients of the raw values at its `w0`. -/
theorem cookbook_eq (c : Params) (d : Draws) (ty : FilterType) (sr : Rate) (f q g : FWord) :
    cookbook c d ty sr f q g =
      normalise c.precision d (rawValues c d ty (fsin c.precision (angularFrequency c.precision d sr f))
        (fcos c.precision (angularFrequency c.precision d sr f))
        (bandwidth c.precision d (fsin c.precision (angularFrequency c.precision d sr f)) q) g) := rfl

/-- Two types that ignore the gain have one `a1` and one `a2`. -/
theorem derive_common_denominator (c : Params) (d d' : Draws) {ty ty' : FilterType} {sr : Rate} {f q g g' : FWord}
    {r r' : Coeffs} (hpeak : ty ≠ .peak) (hlow : ty ≠ .lowShelf) (hhigh : ty ≠ .highShelf) (hpeak' : ty' ≠ .peak)
    (hlow' : ty' ≠ .lowShelf) (hhigh' : ty' ≠ .highShelf) (hr : derive c d ty sr f q g = some r)
    (hr' : derive c d' ty' sr f q g' = some r') : c.precision.same r.a1 r'.a1 ∧ c.precision.same r.a2 r'.a2 := by
  obtain ⟨hv, rfl⟩ := (derive_eq_some_iff ..).mp hr
  obtain ⟨-, rfl⟩ := (derive_eq_some_iff ..).mp hr'
  rw [cookbook_eq, cookbook_eq, ← angularFrequency_eq c.precision d d' hv]
  have halpha := bandwidth_same c.precision d d' (fsin c.precision (angularFrequency c.precision d sr f)) q
  generalize angularFrequency c.precision d sr f = w0 at halpha ⊢
  obtain ⟨h0, h1, h2⟩ := rawValues_common_denominator c d (fsin c.precision w0) (fcos c.precision w0)
    (bandwidth c.precision d (fsin c.precision w0) q) g hpeak hlow hhigh
  obtain ⟨h0', h1', h2'⟩ := rawValues_common_denominator c d' (fsin c.precision w0) (fcos c.precision w0)
    (bandwidth c.precision d' (fsin c.precision w0) q) g' hpeak' hlow' hhigh'
  simp only [normalise, h0, h1, h2, h0', h1', h2']
  have ha0 := commonA0_same c.precision d d' halpha
  exact ⟨fdiv_same _ _ _ (commonA1_same c.precision d d' _) ha0, fdiv_same _ _ _ (commonA2_same c.precision d d' halpha) ha0⟩

/-! ### Which raw values of a type are one -/

/-- BandPass negates its numerator (R88), which is a word of `W` bits in either form. -/
theorem rawBandPass_b2 (p : Precision) (d : Draws) (form : BandpassForm) (sn cs : FWord) {alpha : FWord}
    (h : p.fits alpha = true) :
    (rawBandPass p d form sn cs alpha).b2 = fneg p (rawBandPass p d form sn cs alpha).b0 ∧
      p.fits (rawBandPass p d form sn cs alpha).b0 = true := by
  cases form with
  | peak0db => exact ⟨rfl, h⟩
  | skirt => exact ⟨rfl, fdiv_fits p _ _ _⟩

theorem normalise_b2_b0 (p : Precision) (d : Draws) {r : Raw} (h : r.b2 = r.b0) :
    p.same (normalise p d r).b2 (normalise p d r).b0 := by
  simp only [normalise, h]
  exact fdiv_same_self p _ _ _ _

theorem normalise_b2_fneg_b0 (p : Precision) (d : Draws) {r : Raw} (h : r.b2 = fneg p r.b0) (hfit : p.fits r.b0 = true) :
    p.same (normalise p d r).b2 (fneg p (normalise p d r).b0) := by
  simp only [normalise, h]
  exact fdiv_fneg_same p _ _ _ hfit

theorem normalise_b1_a1 (p : Precision) (d : Draws) {r : Raw} (h : r.b1 = r.a1) :
    p.same (normalise p d r).b1 (normalise p d r).a1 := by
  simp only [normalise, h]
  exact fdiv_same_self p _ _ _ _

theorem normalise_b0_a2 (p : Precision) (d : Draws) {r : Raw} (h : r.b0 = r.a2) :
    p.same (normalise p d r).b0 (normalise p d r).a2 := by
  simp only [normalise, h]
  exact fdiv_same_self p _ _ _ _

/-- Settles O43: where a type's formulas name one raw value twice, its quotients agree. -/
theorem coefficientsAreRelatedByType : Obligations.CoefficientsAreRelatedByType := by
  refine ⟨fun s t f q g => ⟨?_, ?_, ?_, ?_, ?_, ?_⟩, ?_⟩
  · intro h hok
    obtain ⟨d, sn, cs, alpha, -, hc⟩ := exec_set_quotients (ty := .lowPass) rfl h hok
    exact hc ▸ normalise_b2_b0 _ d rfl
  · intro h hok
    obtain ⟨d, sn, cs, alpha, -, hc⟩ := exec_set_quotients (ty := .highPass) rfl h hok
    exact hc ▸ normalise_b2_b0 _ d rfl
  · intro h hok
    obtain ⟨d, sn, cs, alpha, hfit, hc⟩ := exec_set_quotients (ty := .bandPass) rfl h hok
    obtain ⟨hneg, hfit0⟩ := rawBandPass_b2 s.params.precision d s.params.bandpassForm sn cs hfit
    exact hc ▸ normalise_b2_fneg_b0 _ d hneg hfit0
  · intro h hok
    obtain ⟨d, sn, cs, alpha, -, hc⟩ := exec_set_quotients (ty := .notch) rfl h hok
    exact hc ▸ ⟨normalise_b1_a1 _ d rfl, normalise_b2_b0 _ d rfl⟩
  · intro h hok
    obtain ⟨d, sn, cs, alpha, -, hc⟩ := exec_set_quotients (ty := .peak) rfl h hok
    exact hc ▸ normalise_b1_a1 _ d rfl
  · intro h hok
    obtain ⟨d, sn, cs, alpha, -, hc⟩ := exec_set_quotients (ty := .allPass) rfl h hok
    exact hc ▸ ⟨normalise_b0_a2 _ d rfl, normalise_b1_a1 _ d rfl⟩
  · intro c d d' ty ty' sr f q g g' r r' hp hl hh hp' hl' hh'
    exact derive_common_denominator c d d' hp hl hh hp' hl' hh'

/-! ### Peak at amplitude 1 -/

/-- With amplitude 1, `alpha * A` and `alpha / A` are both `alpha` (R90). -/
theorem rawPeak_one (p : Precision) (d : Draws) (cs : FWord) {alpha : FWord} (hfit : p.fits alpha = true)
    (hfin : p.finite alpha = true) :
    rawPeak p d (cvt p 1) cs alpha =
      ⟨fadd p (d 12) (cvt p 1) alpha, fmul p (d 11) (fneg p (cvt p 2)) cs, fsub p (d 13) (cvt p 1) alpha,
        fadd p (d 14) (cvt p 1) alpha, fmul p (d 11) (fneg p (cvt p 2)) cs, fsub p (d 15) (cvt p 1) alpha⟩ := by
  simp only [rawPeak, fmul_one p _ hfit hfin, fdiv_one p _ hfit hfin]

/-- Settles O44: numerator and denominator have the same raw values, and `b0` is `a0r` over itself. -/
theorem peakAtUnitAmplitudeIsTheIdentity : Obligations.PeakAtUnitAmplitudeIsTheIdentity := by
  intro p d cs alpha hfit hfin ha0 hz
  have hdraw : ∀ n, fadd p n (cvt p 1) alpha = fadd p 0#64 (cvt p 1) alpha := fun n => by
    rw [fadd_finite p n (cvt_one_finite p) hfin, fadd_finite p 0#64 (cvt_one_finite p) hfin]
  have hsub := fsub_same p (d 13) (d 15) (p.same_refl (cvt p 1)) (p.same_refl alpha)
  simp only [rawPeak_one p d cs hfit hfin, normalise, hdraw]
  exact ⟨fdiv_self p _ ha0 hz, fdiv_same_self p _ _ _ _, fdiv_same p _ _ hsub (p.same_refl _)⟩

end Sys2Proof.Machine
end

section
/-! PROCESS as the section over its input, 42_process_section.md R121: the state a burst leaves, written out once, and the first
statements that follow from it. -/

namespace Sys2Proof.Machine

/-! ### The state a burst leaves -/

/-- A burst writes the history and the two buffers, and draws once a sample. -/
theorem burst_state (k n : Nat) (s : State) :
    (burst k n s).1 = { s with
      history := (burst k n s).1.history
      inBuf := (burst k n s).1.inBuf
      outBuf := (burst k n s).1.outBuf
      draws := s.draws + k } := by
  obtain ⟨hparams, hcoeffs, hsr, hprep, hconf, hpend, hplace, hresp, -, hdraws⟩ := burst_frame k n s
  generalize (burst k n s).1 = t at *
  cases t
  cases hparams
  cases hcoeffs
  cases hsr
  cases hprep
  cases hconf
  cases hpend
  cases hplace
  cases hresp
  cases hdraws
  rfl

/-- Where the two buffers are not one storage, a burst does not change `IN`. -/
theorem burst_inBuf_of_ne_same (k n : Nat) (s : State) (h : s.placement ≠ .same) : (burst k n s).1.inBuf = s.inBuf := by
  induction k generalizing n s with
  | zero => rfl
  | succ k ih =>
    have hstep : (s.sampleStep n).inBuf = s.inBuf := by
      cases hp : s.placement with
      | separate => exact s.sampleStep_inBuf_separate n hp
      | same => exact absurd hp h
      | partialOverlap => simp only [State.sampleStep, State.writeOut, hp]
    rw [burst_succ]
    exact (ih (n + 1) (s.sampleStep n) h).trans hstep

theorem burst_inBuf (k : Nat) (s : State) :
    (burst k 0 s).1.inBuf = if s.placement = .same then (burst k 0 s).2 ++ s.inBuf.drop k else s.inBuf := by
  split
  · rename_i hp
    simpa using burst_inBuf_same k 0 s hp (Nat.zero_le _)
  · rename_i hp
    exact burst_inBuf_of_ne_same k 0 s hp

/-- What the section makes of the input of a whole PROCESS of `k` samples: the history it leaves, and the output samples. -/
def State.filtered (s : State) (k : Nat) : History × List FWord :=
  filterList s.params.precision (fun n => Config.nanBits (s.draws + n)) s.coeffs s.history 0 (s.input k)

@[simp] theorem State.filtered_length (s : State) (k : Nat) : (s.filtered k).2.length = k :=
  (filterList_length ..).trans (s.input_length k)

theorem burst_filtered (k : Nat) (s : State) :
    (burst k 0 s).2 = (s.filtered k).2 ∧ (burst k 0 s).1.history = (s.filtered k).1 := by
  have h := burst_filterList k 0 s.draws s rfl fun _ => Nat.zero_le _
  rwa [s.input_eq k] at h

/-- A PROCESS that passes its tests completes, and this is the state it leaves (R121). -/
theorem execProcess_filtered (a : Len) (s : State) (hp : s.prepared = true) (hc : s.configured = true)
    (hpl : s.placement ≠ .partialOverlap ∨ a = 0#32) :
    execProcess a a s = .next { s with
      history := (s.filtered a.toNat).1
      outBuf := (s.filtered a.toNat).2 ++ s.outBuf.drop a.toNat
      inBuf := if s.placement = .same then (s.filtered a.toNat).2 ++ s.inBuf.drop a.toNat else s.inBuf
      response := some ⟨.ok, (s.filtered a.toNat).2⟩
      draws := s.draws + a.toNat } := by
  obtain ⟨hout, hhist⟩ := burst_filtered a.toNat s
  have hbuf : (burst a.toNat 0 s).1.outBuf = (burst a.toNat 0 s).2 ++ s.outBuf.drop a.toNat := by
    simpa using burst_outBuf a.toNat 0 s (Nat.zero_le _)
  rw [execProcess_ok a s hp hc hpl, burst_state, State.answer, burst_inBuf, hbuf, hhist, hout]

/-- What a PROCESS that passed its tests leaves in each register, and its response. -/
theorem execProcess_next {a : Len} {s t : State} (h : execProcess a a s = .next t) (hp : s.prepared = true)
    (hc : s.configured = true) (hpl : s.placement ≠ .partialOverlap ∨ a = 0#32) :
    t.history = (s.filtered a.toNat).1 ∧ t.response = some ⟨.ok, (s.filtered a.toNat).2⟩ ∧ t.coeffs = s.coeffs ∧
      t.sr = s.sr ∧ t.prepared = s.prepared ∧ t.configured = s.configured ∧ t.params = s.params ∧
      t.placement = s.placement := by
  rw [execProcess_filtered a s hp hc hpl, Host.Outcome.next.injEq] at h
  subst h
  exact ⟨rfl, rfl, rfl, rfl, rfl, rfl, rfl, rfl⟩

/-- Settles O45: each test in its order, then `execProcess_filtered`. -/
theorem processFiltersItsInput : Obligations.ProcessFiltersItsInput := fun a b s =>
  ⟨execProcess_unprepared a b s, execProcess_unconfigured a b s, execProcess_mismatch a b s, execProcess_filtered a s⟩

/-! ### Direct form I -/

/-- The stream that `DF1` reads or writes: two samples from before the burst, then those of the burst. -/
def stream (older newer : FWord) (xs : List FWord) (k : Nat) : FWord := (older :: newer :: xs).getD k 0#64

/-- Over a burst under `DF1` every output is the recurrence of the two streams, and the history left is the end of both (R120,
R122). -/
theorem filterList_df1 (p : Precision) (d : Nat → Draws) (c : Coeffs) (x1 x2 y1 y2 : FWord) (m : Nat) (xs : List FWord) :
    let r := filterList p d c (.df1 x1 x2 y1 y2) m xs
    let X := stream x2 x1 xs
    let Y := stream y2 y1 r.2
    (∀ n, n < xs.length → Y (n + 2) = recur p (d (m + n)) c (X (n + 2)) (X (n + 1)) (X n) (Y (n + 1)) (Y n)) ∧
      r.1 = .df1 (X (xs.length + 1)) (X xs.length) (Y (xs.length + 1)) (Y xs.length) := by
  induction xs generalizing x1 x2 y1 y2 m with
  | nil => exact ⟨fun n hn => absurd hn (Nat.not_lt_zero n), rfl⟩
  | cons x xs ih =>
    intro r X Y
    have hrest := ih x x1 (recur p (d m) c x x1 x2 y1 y2) y1 (m + 1)
    obtain ⟨hout, hhist⟩ := hrest
    refine ⟨fun n hn => ?_, hhist⟩
    cases n with
    | zero => rfl
    | succ n =>
      have h := hout n (Nat.lt_of_succ_lt_succ hn)
      rwa [Nat.add_right_comm m 1 n] at h

/-- Settles O46: `filterList_df1` for the input and the history that the state holds. -/
theorem burstSatisfiesTheDifferenceEquation : Obligations.BurstSatisfiesTheDifferenceEquation := by
  intro s a x1 x2 y1 y2 hp hc hpl hhist
  have hlen := s.filtered_length a.toNat
  have hdf1 := filterList_df1 s.params.precision (fun n => Config.nanBits (s.draws + n)) s.coeffs x1 x2 y1 y2 0
    (s.input a.toNat)
  rw [← hhist, s.input_length] at hdf1
  obtain ⟨hout, hend⟩ := hdf1
  exact ⟨_, (s.filtered a.toNat).2, execProcess_filtered a s hp hc (.inl hpl), rfl, hlen,
    fun n hn => ⟨_, hout n hn⟩, hend⟩

/-- The last element of a stream that has a newest sample is the list's last. -/
theorem stream_last (older newer : FWord) {ys : List FWord} (h : ys ≠ []) :
    ys.getLast? = some (stream older newer ys (ys.length + 1)) := by
  obtain ⟨init, y, rfl⟩ := List.eq_nil_or_concat ys |>.resolve_left h
  simp [stream]

/-- A PROCESS with equal lengths that answers `OK` has passed its tests. -/
theorem execProcess_status_ok {a : Len} {s t : State} (h : execProcess a a s = .next t) (hok : t.status = some .ok) :
    s.prepared = true ∧ s.configured = true ∧ (s.placement ≠ .partialOverlap ∨ a = 0#32) := by
  rcases exec_next_cases (i := .process a a) h with
    ⟨e, he, rfl⟩ | ⟨_, ⟨⟩, -⟩ | ⟨ty, f, q, g, hi, -⟩ | ⟨n, hi, hp, hc, hpl, -⟩ | ⟨⟨⟩, -⟩
  · exact absurd (Option.some.inj hok) he
  · exact absurd hi.symm (setInstr_ne_of_filterType_none rfl ty f q g)
  · cases hi
    exact ⟨hp, hc, hpl⟩

/-- Settles O48: the history left ends the output stream, and `OUT` begins with the outputs. -/
theorem outputWordIsTheHistoryWord : Obligations.OutputWordIsTheHistoryWord := by
  intro s t a x1 x2 y1 y2 hhist ha h hok
  obtain ⟨hp, hc, hpl⟩ := execProcess_status_ok h hok
  have hlen := s.filtered_length a.toNat
  have hne : (s.filtered a.toNat).2 ≠ [] := by
    intro hnil
    rw [hnil, List.length_nil] at hlen
    exact ha (BitVec.eq_of_toNat_eq hlen.symm)
  obtain ⟨-, hend⟩ := filterList_df1 s.params.precision (fun n => Config.nanBits (s.draws + n)) s.coeffs x1 x2 y1 y2 0
    (s.input a.toNat)
  rw [← hhist, s.input_length] at hend
  have hlast := stream_last y2 y1 hne
  rw [hlen] at hlast
  have hx := (execProcess_filtered a s hp hc hpl).symm.trans h
  rw [Host.Outcome.next.injEq] at hx
  subst hx
  exact ⟨_, _, _, _, _, rfl, hend, hlast, by simp [List.take_left' hlen]⟩

/-! ### The transposed form -/

/-- Settles O49: the burst is one sample step, which reads the old `s1` and `s2` (R129). -/
theorem transposedStepUpdatesThePartialSums : Obligations.TransposedStepUpdatesThePartialSums := by
  intro s x s1 s2 rest hp hc hpl hhist hbuf hx
  have hin : s.inSample 0 = x := s.inSample_zero_of_fits hbuf hx
  have hout : s.sampleOut 0 = transposedOut s.params.precision (Config.nanBits s.draws) s.coeffs x s1 := by
    simp only [State.sampleOut, hhist, hin, sectionOut]
  have hnext : (s.sampleStep 0).history =
      .df2t (transposedSum1 s.params.precision (Config.nanBits s.draws) s.coeffs x (s.sampleOut 0) s2)
        (transposedSum2 s.params.precision (Config.nanBits s.draws) s.coeffs x (s.sampleOut 0)) := by
    simp only [State.sampleStep_history, hhist, hin, sectionNext]
  rw [hout] at hnext
  exact ⟨_, Config.nanBits s.draws, execProcess_one s hp hc hpl, by rw [State.answer_response, hout]; rfl, hnext⟩

end Sys2Proof.Machine
end

section
/-! What holds over a whole burst, 42_process_section.md: bursts concatenate (R125), NaNs stay (R127), zeros give zeros (R131,
R130), and one storage for both buffers changes nothing (20_memory.md R43). -/

namespace Sys2Proof.Machine

/-! ### Concatenation (R125) -/

/-- A host that hands over as many samples as it announces: the section runs over its list. -/
theorem State.filtered_of_length (s : State) {k : Nat} (h : s.inBuf.length = k) :
    s.filtered k = filterList s.params.precision (fun n => Config.nanBits (s.draws + n)) s.coeffs s.history 0
      (s.inBuf.map s.params.precision.cut) := by
  rw [State.filtered, s.input_of_length k h]

/-- The section over `u ++ v` is the section over `u` and then, from the history that leaves and at any draws, over `v`. -/
theorem filterList_append_same (p : Precision) (d d' : Nat → Draws) (c : Coeffs) (h : History) (u v : List FWord) :
    let first := filterList p d c h 0 u
    let second := filterList p d' c first.1 0 v
    let whole := filterList p d c h 0 (u ++ v)
    second.1.same p whole.1 ∧ List.Forall₂ p.same (first.2 ++ second.2) whole.2 := by
  intro first second whole
  have hwhole : whole = _ := filterList_append p d c h 0 u v
  obtain ⟨hhist, hout⟩ := filterList_same p d' d c first.1 first.1 0 (0 + u.length) v (History.same_refl p first.1)
  rw [hwhole]
  exact ⟨hhist, List.rel_append (List.forall₂_same.mpr fun y _ => p.same_refl y) hout⟩

/-- Settles O50: each command is `filtered` over its list (R121), and the lists concatenate. -/
theorem burstsConcatenate : Obligations.BurstsConcatenate := by
  intro s t t' w m n l u v k hu hv hl hp hc hpl ht ht' hw
  have hsep : s.placement ≠ .partialOverlap := by simp [hpl]
  obtain ⟨hhist, hresp, hcoeffs, hsr, hprep, hconf, hparams, hplace⟩ :=
    execProcess_next (s := { s with inBuf := u }) ht hp hc (.inl hsep)
  obtain ⟨hhist', hresp', hcoeffs', hsr', hprep', hconf', -, -⟩ :=
    execProcess_next (s := { t with inBuf := v, draws := k }) ht' (hprep.trans hp) (hconf.trans hc)
      (.inl (by rw [hplace]; exact hsep))
  obtain ⟨hhistw, hrespw, hcoeffsw, hsrw, hprepw, hconfw, -, -⟩ :=
    execProcess_next (s := { s with inBuf := u ++ v }) hw hp hc (.inl hsep)
  rw [State.filtered_of_length _ hu] at hhist hresp
  rw [State.filtered_of_length _ hv] at hhist' hresp'
  rw [State.filtered_of_length _ (by rw [List.length_append, hu, hv, hl]), List.map_append] at hhistw hrespw
  simp only [hparams, hcoeffs, hhist] at hhist' hresp'
  obtain ⟨hsame, hout⟩ := filterList_append_same s.params.precision (fun n => Config.nanBits (s.draws + n))
    (fun n => Config.nanBits (k + n)) s.coeffs s.history (u.map s.params.precision.cut) (v.map s.params.precision.cut)
  refine ⟨_, _, _, hresp, hresp', hrespw, hout, ?_, (hcoeffs'.trans hcoeffs).trans hcoeffsw.symm,
    (hsr'.trans hsr).trans hsrw.symm, (hprep'.trans hprep).trans hprepw.symm, (hconf'.trans hconf).trans hconfw.symm⟩
  rw [hhist', hhistw]
  exact hsame

/-! ### NaNs stay (R127) -/

/-- The register that every output of the section is made from holds a NaN: `y1`, or `s1`. -/
def History.tainted (p : Precision) : History → Bool
  | .df1 _ _ y1 _ => p.isNaN y1
  | .df2t s1 _ => p.isNaN s1

/-- A NaN sample, or a NaN in that register, makes the output a NaN. -/
theorem sectionOut_nan (p : Precision) (d : Draws) (c : Coeffs) (h : History) (x : FWord)
    (hnan : p.isNaN x = true ∨ h.tainted p = true) : p.isNaN (sectionOut p d c h x) = true := by
  cases h with
  | df1 x1 x2 y1 y2 =>
    rcases hnan with hx | hy
    · exact fsub_nan _ _ _ _ (.inl (fsub_nan _ _ _ _ (.inl (fadd_nan _ _ _ _ (.inl (fadd_nan _ _ _ _ (.inl
        (fmul_nan _ _ _ _ (.inr hx)))))))))
    · exact fsub_nan _ _ _ _ (.inl (fsub_nan _ _ _ _ (.inr (fmul_nan _ _ _ _ (.inr hy)))))
  | df2t s1 s2 =>
    rcases hnan with hx | hs
    · exact fadd_nan _ _ _ _ (.inl (fmul_nan _ _ _ _ (.inr hx)))
    · exact fadd_nan _ _ _ _ (.inr hs)

/-- A NaN output leaves a NaN in that register. -/
theorem sectionNext_tainted (p : Precision) (d : Draws) (c : Coeffs) (h : History) (x : FWord) {y : FWord}
    (hy : p.isNaN y = true) : (sectionNext p d c h x y).tainted p = true := by
  cases h with
  | df1 x1 x2 y1 y2 => exact hy
  | df2t s1 s2 => exact fadd_nan _ _ _ _ (.inl (fsub_nan _ _ _ _ (.inr (fmul_nan _ _ _ _ (.inr hy)))))

/-- From such a history on, every output is a NaN and the history stays such. -/
theorem filterList_tainted (p : Precision) (d : Nat → Draws) (c : Coeffs) (h : History) (n : Nat) (xs : List FWord)
    (ht : h.tainted p = true) :
    (∀ y ∈ (filterList p d c h n xs).2, p.isNaN y = true) ∧ (filterList p d c h n xs).1.tainted p = true := by
  induction xs generalizing h n with
  | nil => exact ⟨fun y hy => absurd hy List.not_mem_nil, ht⟩
  | cons x xs ih =>
    have hy := sectionOut_nan p (d n) c h x (.inr ht)
    obtain ⟨hrest, hend⟩ := ih _ (n + 1) (sectionNext_tainted p (d n) c h x hy)
    exact ⟨List.forall_mem_cons.mpr ⟨hy, hrest⟩, hend⟩

/-- From a NaN sample on, every output is a NaN. -/
theorem filterList_nan_sample (p : Precision) (d : Nat → Draws) (c : Coeffs) (h : History) (n : Nat) (xs : List FWord)
    {k j : Nat} {x y : FWord} (hx : xs[k]? = some x) (hnan : p.isNaN x = true) (hkj : k ≤ j)
    (hy : (filterList p d c h n xs).2[j]? = some y) : p.isNaN y = true := by
  induction xs generalizing h n k j with
  | nil => cases hx
  | cons x' xs ih =>
    cases k with
    | zero =>
      obtain rfl : x' = x := Option.some.inj hx
      have hout := sectionOut_nan p (d n) c h x' (.inl hnan)
      obtain ⟨hrest, -⟩ := filterList_tainted p d c _ (n + 1) xs (sectionNext_tainted p (d n) c h x' hout)
      rcases List.mem_cons.mp (List.mem_of_getElem? hy) with rfl | hmem
      · exact hout
      · exact hrest y hmem
    | succ k =>
      obtain ⟨j, rfl⟩ := Nat.exists_eq_add_of_le' (Nat.one_le_of_lt hkj)
      exact ih _ (n + 1) hx (Nat.le_of_succ_le_succ hkj) hy

theorem History.exists_df1 {h : History} (hf : h.form = .df1) : ∃ x1 x2 y1 y2, h = .df1 x1 x2 y1 y2 := by
  cases h with
  | df1 x1 x2 y1 y2 => exact ⟨x1, x2, y1, y2, rfl⟩
  | df2t => cases hf

theorem History.exists_df2t {h : History} (hf : h.form = .df2t) : ∃ s1 s2, h = .df2t s1 s2 := by
  cases h with
  | df1 => cases hf
  | df2t s1 s2 => exact ⟨s1, s2, rfl⟩

/-- The section keeps the form of its history. -/
@[simp] theorem filterList_form (p : Precision) (d : Nat → Draws) (c : Coeffs) (h : History) (n : Nat) (xs : List FWord) :
    (filterList p d c h n xs).1.form = h.form := by
  induction xs generalizing h n with
  | nil => rfl
  | cons x xs ih => exact (ih _ (n + 1)).trans (sectionNext_form ..)

/-- Settles O52. -/
theorem nansTaintEveryLaterOutput : Obligations.NaNsTaintEveryLaterOutput := by
  intro s a hp hc hpl
  refine ⟨_, (s.filtered a.toNat).2, execProcess_filtered a s hp hc (.inl hpl), rfl, ?_, ?_, ?_⟩
  · exact fun k j x y hx hnan hkj hy => filterList_nan_sample _ _ _ _ _ _ hx hnan hkj hy
  · intro x1 x2 y1 y2 hhist hnan
    obtain ⟨hout, hend⟩ := filterList_tainted s.params.precision (fun n => Config.nanBits (s.draws + n)) s.coeffs s.history 0
      (s.input a.toNat) (by rw [hhist]; exact hnan)
    obtain ⟨u1, u2, v1, v2, hu⟩ := History.exists_df1 (h := (s.filtered a.toNat).1)
      ((filterList_form ..).trans (by rw [hhist]; rfl))
    exact ⟨hout, u1, u2, v1, v2, hu, by rwa [← State.filtered, hu] at hend⟩
  · intro s1 s2 hhist hnan
    obtain ⟨hout, hend⟩ := filterList_tainted s.params.precision (fun n => Config.nanBits (s.draws + n)) s.coeffs s.history 0
      (s.input a.toNat) (by rw [hhist]; exact hnan)
    obtain ⟨u1, u2, hu⟩ := History.exists_df2t (h := (s.filtered a.toNat).1)
      ((filterList_form ..).trans (by rw [hhist]; rfl))
    exact ⟨hout, u1, u2, hu, by rwa [← State.filtered, hu] at hend⟩

/-! ### Zero in, zero out (R131) -/

theorem Coeffs.all_iff (f : FWord → Bool) (c : Coeffs) :
    c.all f = true ↔ f c.b0 = true ∧ f c.b1 = true ∧ f c.b2 = true ∧ f c.a1 = true ∧ f c.a2 = true := by
  simp [Coeffs.all, and_assoc]

/-- Finite coefficients on zeros give a zero. -/
theorem sectionOut_zero (p : Precision) (d : Draws) (c : Coeffs) (h : History) (x : FWord) (hc : c.all p.finite = true)
    (hh : h.all p.isZero = true) (hx : p.isZero x = true) : p.isZero (sectionOut p d c h x) = true := by
  obtain ⟨b0, b1, b2, a1, a2⟩ := (c.all_iff p.finite).mp hc
  cases h with
  | df1 x1 x2 y1 y2 =>
    simp only [History.all, Bool.and_eq_true] at hh
    obtain ⟨⟨⟨hx1, hx2⟩, hy1⟩, hy2⟩ := hh
    exact fsub_zero_zero _ _ _ _ (fsub_zero_zero _ _ _ _ (fadd_zero_zero _ _ _ _ (fadd_zero_zero _ _ _ _
      (fmul_zero _ _ _ _ b0 hx) (fmul_zero _ _ _ _ b1 hx1)) (fmul_zero _ _ _ _ b2 hx2)) (fmul_zero _ _ _ _ a1 hy1))
      (fmul_zero _ _ _ _ a2 hy2)
  | df2t s1 s2 =>
    simp only [History.all, Bool.and_eq_true] at hh
    obtain ⟨hs1, -⟩ := hh
    exact fadd_zero_zero _ _ _ _ (fmul_zero _ _ _ _ b0 hx) hs1

theorem sectionNext_zero (p : Precision) (d : Draws) (c : Coeffs) (h : History) (x y : FWord) (hc : c.all p.finite = true)
    (hh : h.all p.isZero = true) (hx : p.isZero x = true) (hy : p.isZero y = true) :
    (sectionNext p d c h x y).all p.isZero = true := by
  obtain ⟨b0, b1, b2, a1, a2⟩ := (c.all_iff p.finite).mp hc
  cases h with
  | df1 x1 x2 y1 y2 =>
    simp only [History.all, Bool.and_eq_true, sectionNext] at hh ⊢
    obtain ⟨⟨⟨hx1, -⟩, hy1⟩, -⟩ := hh
    exact ⟨⟨⟨hx, hx1⟩, hy⟩, hy1⟩
  | df2t s1 s2 =>
    simp only [History.all, Bool.and_eq_true, sectionNext] at hh ⊢
    obtain ⟨-, hs2⟩ := hh
    exact ⟨fadd_zero_zero _ _ _ _ (fsub_zero_zero _ _ _ _ (fmul_zero _ _ _ _ b1 hx) (fmul_zero _ _ _ _ a1 hy)) hs2,
      fsub_zero_zero _ _ _ _ (fmul_zero _ _ _ _ b2 hx) (fmul_zero _ _ _ _ a2 hy)⟩

theorem filterList_zero (p : Precision) (d : Nat → Draws) (c : Coeffs) (h : History) (n : Nat) (xs : List FWord)
    (hc : c.all p.finite = true) (hh : h.all p.isZero = true) (hxs : ∀ x ∈ xs, p.isZero x = true) :
    (∀ y ∈ (filterList p d c h n xs).2, p.isZero y = true) ∧ (filterList p d c h n xs).1.all p.isZero = true := by
  induction xs generalizing h n with
  | nil => exact ⟨fun y hy => absurd hy List.not_mem_nil, hh⟩
  | cons x xs ih =>
    obtain ⟨hx, hxs⟩ := List.forall_mem_cons.mp hxs
    have hy := sectionOut_zero p (d n) c h x hc hh hx
    obtain ⟨hrest, hend⟩ := ih _ (n + 1) (sectionNext_zero p (d n) c h x _ hc hh hx hy) hxs
    exact ⟨List.forall_mem_cons.mpr ⟨hy, hrest⟩, hend⟩

/-- Settles O53. -/
theorem zeroInputGivesZeroOutput : Obligations.ZeroInputGivesZeroOutput := by
  intro s a hp hc hpl hcoeffs hhist hin
  obtain ⟨hout, hend⟩ := filterList_zero s.params.precision (fun n => Config.nanBits (s.draws + n)) s.coeffs s.history 0
    (s.input a.toNat) hcoeffs hhist hin
  exact ⟨_, (s.filtered a.toNat).2, execProcess_filtered a s hp hc (.inl hpl), rfl, s.filtered_length _, hout, hend⟩

/-! ### One storage for both buffers (20_memory.md R43) -/

/-- Settles O54: what the section makes of its input does not depend on where `OUT` lies. -/
theorem sharedBufferGivesTheSameResult : Obligations.SharedBufferGivesTheSameResult := by
  intro s t a hpl h
  change execProcess a a s = .next t at h
  by_cases hp : s.prepared = true
  · by_cases hc : s.configured = true
    · have hx := (execProcess_filtered a s hp hc (.inl (by simp [hpl]))).symm.trans h
      rw [Host.Outcome.next.injEq] at hx
      subst hx
      refine ⟨_, execProcess_filtered a { s with placement := .same, outBuf := s.inBuf } hp hc (.inl (by simp)), rfl, rfl,
        rfl, ?_⟩
      intro ys hys
      obtain rfl : (s.filtered a.toNat).2 = ys := by simpa using hys
      rfl
    · rw [Bool.not_eq_true] at hc
      rw [execProcess_unconfigured a a s hp hc, Host.Outcome.next.injEq] at h
      subst h
      exact ⟨_, execProcess_unconfigured a a { s with placement := .same, outBuf := s.inBuf } hp hc, rfl, rfl, rfl,
        by rintro ys ⟨⟩⟩
  · rw [Bool.not_eq_true] at hp
    rw [execProcess_unprepared a a s hp, Host.Outcome.next.injEq] at h
    subst h
    exact ⟨_, execProcess_unprepared a a { s with placement := .same, outBuf := s.inBuf } hp, rfl, rfl, rfl,
      by rintro ys ⟨⟩⟩

end Sys2Proof.Machine
end
